-- ==== Sys2Proof/Word.lean ====
section
/-! DEFINITION. The widths of the block: the spec's u8, u16 and u32 (R8, 00_scope.md). -/

namespace Sys2Proof

/-- u8: one byte on the wire, in BUF or in STAGE (R8). -/
abbrev Byte := BitVec 8

/-- u16: the CRC accumulator and a 16-bit value word (R7, R8). -/
abbrev Half := BitVec 16

/-- u32: a host register, a command word, a 32-bit value word (R7, R8, R31). -/
abbrev Word := BitVec 32

/-- The index of a host register, 0x0 to 0xF (R60, 20_memory.md). -/
abbrev RegIndex := BitVec 4

end Sys2Proof
end

