-- ==== Sys2Proof/Syntax.lean ====
section
/-! DEFINITION. The commands of the block, one constructor for each row of R85 (30_encoding.md), and the accesses
that a host can make. Commands carry no operand: every operand comes from OPA or OPB (R87). -/

namespace Sys2Proof

/-- The sixteen commands of R85. -/
inductive Instr where
  | nop
  | crcGen | crcChk
  | valDec16 | valDec32 | valEnc32
  | hdrEnc | hdrDec
  | sInit | sPush | sAppend | sSetdata | sEncode | sVerify | sRead | sReadt
deriving DecidableEq, Repr

/-- The registers that a host index can name (R31, 10_state.md). -/
inductive Reg where
  | cmd | opa | opb | res0 | res1 | rexp | ecode | status | len | slen
  /-- Indices 0xA to 0xF. -/
  | reserved
deriving DecidableEq, Repr

/-- What can reach the block from outside in one step: a host access to one register (R30), or an edge of the reset
input (R241, 70_reset_and_hazards.md). -/
inductive Input where
  /-- The host reads the register at an index. -/
  | read (ix : RegIndex)
  /-- The host writes a 32-bit value to the register at an index. -/
  | write (ix : RegIndex) (v : Word)
  /-- The platform asserts reset. -/
  | assertReset
  /-- The platform releases reset. -/
  | releaseReset
deriving DecidableEq, Repr

end Sys2Proof
end

