-- ==== Sys2Proof/WellFormed.lean ====
section
/-! DEFINITION. Which command words are well formed: R80 and R86 (30_encoding.md), read apart from the opcode table
that the decoder follows. Every term of Instr is well formed, since commands carry no field (R87). -/

namespace Sys2Proof

/-- R80: the field Z, bits 31:8, must be zero. -/
def zClear (w : Word) : Bool := w.extractLsb' 8 24 == 0#24

/-- R86 gives the opcodes that are not listed as four ranges; this is what remains. -/
def listedOpcode (op : Byte) : Bool :=
  let n := op.toNat
  !((0x03 ≤ n && n ≤ 0x0F) || (0x13 ≤ n && n ≤ 0x1F) || (0x22 ≤ n && n ≤ 0x2F) || (0x38 ≤ n && n ≤ 0xFF))

/-- A word that is some command of R85, as R86 delimits them. -/
def wellFormedWord (w : Word) : Bool := zClear w && listedOpcode (w.extractLsb' 0 8)

/-- A command has no field that could be out of range (R87). -/
def Instr.wf : Instr → Bool
  | .nop => true
  | .crcGen => true
  | .crcChk => true
  | .valDec16 => true
  | .valDec32 => true
  | .valEnc32 => true
  | .hdrEnc => true
  | .hdrDec => true
  | .sInit => true
  | .sPush => true
  | .sAppend => true
  | .sSetdata => true
  | .sEncode => true
  | .sVerify => true
  | .sRead => true
  | .sReadt => true

end Sys2Proof
end

