-- ==== Sys2Proof/Decode.lean ====
section
/-! DEFINITION. The decoder of command words, total (R81, 30_encoding.md), and the encoder, both from the opcode map
R85. -/

namespace Sys2Proof

/-- Why a word is no command (R81). Both kinds perform R201. -/
inductive Illegal where
  /-- `W[31:8] ≠ 0`. -/
  | zBits
  /-- `W[7:0]` is not listed in R85. -/
  | opcode
deriving DecidableEq, Repr

/-- The opcode map R85, from opcode to command. -/
def commandOf (op : Byte) : Option Instr :=
  match op.toNat with
  | 0x00 => some .nop
  | 0x01 => some .crcGen
  | 0x02 => some .crcChk
  | 0x10 => some .valDec16
  | 0x11 => some .valDec32
  | 0x12 => some .valEnc32
  | 0x20 => some .hdrEnc
  | 0x21 => some .hdrDec
  | 0x30 => some .sInit
  | 0x31 => some .sPush
  | 0x32 => some .sAppend
  | 0x33 => some .sSetdata
  | 0x34 => some .sEncode
  | 0x35 => some .sVerify
  | 0x36 => some .sRead
  | 0x37 => some .sReadt
  | _ => none

/-- R81: decoding is total; a word is one command or illegal by name. -/
def decode (w : Word) : Except Illegal Instr :=
  if w.extractLsb' 8 24 ≠ 0#24 then .error .zBits
  else match commandOf (w.extractLsb' 0 8) with
    | some i => .ok i
    | none => .error .opcode

/-- The OP field of a command (R85). -/
def opcodeOf : Instr → Byte
  | .nop => 0x00#8
  | .crcGen => 0x01#8
  | .crcChk => 0x02#8
  | .valDec16 => 0x10#8
  | .valDec32 => 0x11#8
  | .valEnc32 => 0x12#8
  | .hdrEnc => 0x20#8
  | .hdrDec => 0x21#8
  | .sInit => 0x30#8
  | .sPush => 0x31#8
  | .sAppend => 0x32#8
  | .sSetdata => 0x33#8
  | .sEncode => 0x34#8
  | .sVerify => 0x35#8
  | .sRead => 0x36#8
  | .sReadt => 0x37#8

/-- The command word: Z = 0 above OP (R80, R88). -/
def encode (i : Instr) : Word := 0#24 ++ opcodeOf i

/-- The command word that a table row of `nbits` bits stands for; the bits above `nbits` are 0. -/
def tableWord (nbits w : Nat) : Word := BitVec.ofNat 32 (w % 2 ^ nbits)

/-- What the decoder reads from a row's bits as spec/opcode_table.json numbers them. -/
def decodeTableWord (nbits w : Nat) : Option Instr :=
  match decode (tableWord nbits w) with
  | .ok i => some i
  | .error _ => none

end Sys2Proof
end

