-- ==== Sys2Proof/Machine/Operands.lean ====
section
/-! DEFINITION. The spec's integer primitives (R9 to R14, 00_scope.md) and the operand and result layouts (R82 to R84,
30_encoding.md). -/

namespace Sys2Proof.Machine

/-- R9: the low 8 bits of an integer. -/
def crop8 (v : Int) : Byte := BitVec.ofInt 8 v

/-- R9: the low 16 bits of an integer. -/
def crop16 (v : Int) : Half := BitVec.ofInt 16 v

/-- R9: the low 32 bits of an integer. -/
def crop32 (v : Int) : Word := BitVec.ofInt 32 v

/-- R13: the one's complement of a byte, `255 - x`. -/
def not8 (x : Byte) : Byte := 255#8 - x

/-- R10: `((255 - a) << 8) | b`. -/
def conv16 (a b : Byte) : Half := ((not8 a).setWidth 16 <<< 8) ||| b.setWidth 16

/-- R11: `(hi << 16) | lo`. -/
def conv32 (hi lo : Half) : Word := (hi.setWidth 32 <<< 16) ||| lo.setWidth 32

/-- R12: the signed reading of a word. -/
def toS32 (u : Word) : Int := if u.getLsbD 31 then (u.toNat : Int) - 2 ^ 32 else u.toNat

/-- R12: the bit pattern of a signed integer. -/
def toU32 (v : Int) : Word := crop32 v

/-- R14: sign-extend 8 bits to a register. -/
def sext8 (v : Byte) : Word := v.signExtend 32

/-- R14: zero-extend 8 bits to a register. -/
def zext8 (v : Byte) : Word := v.setWidth 32

/-- Byte `k` of a register, counted from the least significant one. -/
def byteOf (w : Word) (k : Nat) : Byte := w.extractLsb' (8 * k) 8

/-- Layout P16 (R82): the first and second byte of a pair, from bits 15:8 and 7:0. -/
def p16 (w : Word) : Byte × Byte := (byteOf w 1, byteOf w 0)

/-- Layout T24 (R83) as an operand: t0, t1 and t2 from bits 23:16, 15:8 and 7:0. -/
def t24 (w : Word) : Byte × Byte × Byte := (byteOf w 2, byteOf w 1, byteOf w 0)

/-- Layout T24 (R83) as a result: bits 31:24 are 0. -/
def packT24 (t0 t1 t2 : Byte) : Word := (zext8 t0 <<< 16) ||| (zext8 t1 <<< 8) ||| zext8 t2

/-- Layout W4 (R82): byte_a to byte_d, byte_a in bits 31:24. -/
def w4 (w : Word) : Byte × Byte × Byte × Byte := (byteOf w 3, byteOf w 2, byteOf w 1, byteOf w 0)

/-- Layout SE (R82), the significand: `S = to_s32(OPA)`. -/
def seS (opa : Word) : Int := toS32 opa

/-- Layout SE (R82), the exponent: `e = OPB[7:0] − 256·OPB[7]`. -/
def seE (opb : Word) : Int := ((byteOf opb 0).toNat : Int) - 256 * (if opb.getLsbD 7 then 1 else 0)

/-- Layout LC (R82): a length-class code, bits 1:0. -/
def lc (w : Word) : BitVec 2 := w.extractLsb' 0 2

/-- Layout B8 (R82): one byte, bits 7:0. -/
def b8 (w : Word) : Byte := byteOf w 0

/-- Layout IX (R82): an index, bits 15:0. -/
def ix (w : Word) : Nat := (w.extractLsb' 0 16).toNat

/-- Layout HF (R84): the five fields of a frame header. -/
structure HeaderFields where
  addr : BitVec 8
  code : BitVec 4
  prio : BitVec 1
  lcode : BitVec 2
  dir : BitVec 1
deriving DecidableEq, Repr

/-- Layout HF (R84) as an operand; bits 31:16 are ignored. -/
def hf (w : Word) : HeaderFields where
  addr := w.extractLsb' 0 8
  code := w.extractLsb' 8 4
  prio := w.extractLsb' 12 1
  lcode := w.extractLsb' 13 2
  dir := w.extractLsb' 15 1

end Sys2Proof.Machine
end

