-- ==== Sys2Proof/Config.lean ====
section
/-! DEFINITION. What one block fixes and the spec leaves OPEN (R7, 00_scope.md), and the free values. The
constants are opaque: nothing can evaluate them, so what is proved of them holds for every value R7 allows. -/

namespace Sys2Proof

/-- The length classes of a frame (R154, 42_header.md; R170, 43_stream.md). -/
inductive LengthClass where
  | byte3 | byte6 | byte9
  /-- Variable: no fixed triplet count. -/
  | unbounded
deriving DecidableEq, Repr

/-- The six bijections that LENCODE may be, given LENCODE(0) = Byte3 (R7): each constructor names the classes of the
codes 1, 2 and 3 in that order. `c69V` is the listing order that the spec's test vectors use. -/
inductive LengthCodeOrder where
  | c69V | c6V9 | c96V | c9V6 | cV69 | cV96
deriving DecidableEq, Repr, Inhabited

/-- The classes of the codes 1, 2 and 3. -/
def LengthCodeOrder.classes : LengthCodeOrder → LengthClass × LengthClass × LengthClass
  | .c69V => (.byte6, .byte9, .unbounded)
  | .c6V9 => (.byte6, .unbounded, .byte9)
  | .c96V => (.byte9, .byte6, .unbounded)
  | .c9V6 => (.byte9, .unbounded, .byte6)
  | .cV69 => (.unbounded, .byte6, .byte9)
  | .cV96 => (.unbounded, .byte9, .byte6)

/-- The two parameters of R7 that the block's behaviour depends on. -/
structure Params where
  /-- CAP_TRIPLETS: capacity of BUF and of STAGE in triplets. -/
  capTriplets : Nat
  /-- Which bijection LENCODE is. -/
  order : LengthCodeOrder
deriving DecidableEq, Repr

/-- `CAP = 3 × CAP_TRIPLETS`, the capacity in bytes (R7). -/
def Params.cap (p : Params) : Nat := 3 * p.capTriplets

/-- LENCODE: the class of a 2-bit length code (R7). -/
def Params.lencode (p : Params) (c : BitVec 2) : LengthClass :=
  match c.toNat with
  | 0 => .byte3
  | 1 => p.order.classes.1
  | 2 => p.order.classes.2.1
  | _ => p.order.classes.2.2

/-- R7's constraint on CAP_TRIPLETS. -/
def Params.valid (p : Params) : Bool := decide (3 ≤ p.capTriplets) && decide (p.capTriplets ≤ 21845)

/-- OPEN (R7, D15): how many triplets the capacity is above its least value 3. Log 6. -/
opaque Config.spareTriplets : Fin 21843

/-- OPEN (R7, D14): which bijection LENCODE is. Log 7. -/
opaque Config.lengthCodeOrder : LengthCodeOrder

/-- The parameters of the block that `exec` and `step` run. -/
def Config.chip : Params := ⟨Config.spareTriplets.val + 3, Config.lengthCodeOrder⟩

/-- Free value (R49, R240, U5): what a byte of BUF that nothing has written reads as. Log 8. -/
opaque Config.unwrittenBufByte : Nat → Byte

/-- Free value (R49, R240, U5): what a byte of STAGE that nothing has written reads as. Log 8. -/
opaque Config.unwrittenStageByte : Nat → Byte

/-- Free value: what the n-th host read returns when reset is asserted (R241 states no value). Log 5. -/
opaque Config.readDataInReset : Nat → Word

end Sys2Proof
end

