-- ==== Sys2Proof/Machine/State.lean ====
section
/-! DEFINITION. All the state that the spec gives the block (10_state.md), as plain data, and the state right after
reset (R240, 70_reset_and_hazards.md). -/

namespace Sys2Proof.Machine

/-- The values of STATUS.SCODE that the block can write (R210, 60_exceptions.md). Codes 10 to 15 are reserved and
never written, so they have no constructor (log 10). -/
inductive StatusCode where
  | ok | sentinel | errCrc | errHeader | errLength | errAlign | errState | errCapacity | errRange | errOpcode
deriving DecidableEq, Repr

/-- STATUS.ASTATE, the assembler's state (R37, R40). -/
inductive AState where
  | empty
  /-- Partial: some triplets are accumulated. -/
  | partly
  | complete
  | invalid
deriving DecidableEq, Repr

/-- A byte memory: the bytes that have been written, by index. -/
abbrev Memory := List Host.Cell

/-- The canonical form: indices strictly rising. An unlisted index holds no value, so no entry can equal it (log 8). -/
abbrev Memory.wf (m : Memory) : Prop := m.Pairwise fun c d => c.1 < d.1

/-- The block, its reset input, and its host's accesses. -/
structure State where
  /-- OPA (R32). -/
  opa : Word
  /-- OPB (R32). -/
  opb : Word
  /-- RES0 (R34). -/
  res0 : Word
  /-- RES1 (R34). -/
  res1 : Word
  /-- REXP (R35). -/
  rexp : Word
  /-- ECODE (R36). -/
  ecode : Word
  /-- STATUS bits 3:0 (R38). -/
  scode : StatusCode
  /-- STATUS bit 4 (R39). -/
  boolFlag : Bool
  /-- STATUS bits 6:5 (R40). -/
  astate : AState
  /-- STATUS bits 8:7 (R41). -/
  lcode : BitVec 2
  /-- LEN, whose bits 31:16 read 0 (R42). -/
  len : Half
  /-- SLEN, whose bits 31:16 read 0 (R43). -/
  slen : Half
  /-- BUF, the frame buffer (R44). -/
  buf : Memory
  /-- STAGE, the staging buffer (R45). -/
  stage : Memory
  /-- The level of the reset input (R241). -/
  resetAsserted : Bool
  /-- The model's own: the accesses and reset edges to come, the next one first (log 1). -/
  inputs : List Input
  /-- The model's own: the values that host reads have returned, the newest first (log 2). -/
  reads : List Word
deriving DecidableEq, Repr

/-- Why a step stops. The block has no fatal status and no trap (R213, R217): the one reason here belongs to states
that no run reaches. -/
inductive Fault where
  /-- Raised by memRead, memWrite, stageRead and stageWrite at an index of CAP or above, which does not exist
  (R44, R45, R60). Only a state with LEN or SLEN above CAP asks for one. Safe: the model stops where the spec says
  nothing (log 9). -/
  | noSuchByte
deriving DecidableEq, Repr

/-- Why a step has no meaning. -/
inductive Refusal where
  /-- Raised by `exec` for a command that has no meaning yet. No command of this model is left so. Safe. -/
  | notModelled (mnemonic : String)
deriving DecidableEq, Repr

/-- R240: every register at its reset value; BUF and STAGE list nothing, their contents being unspecified. The reset
input is released (R241). The model's own two lists are empty (log 1, log 2). -/
def State.reset : State where
  opa := 0#32
  opb := 0#32
  res0 := 0#32
  res1 := 0#32
  rexp := 0#32
  ecode := 0#32
  scode := .ok
  boolFlag := false
  astate := .empty
  lcode := 0#2
  len := 0#16
  slen := 0#16
  buf := []
  stage := []
  resetAsserted := false
  inputs := []
  reads := []

end Sys2Proof.Machine
end

