-- ==== Sys2Proof/Machine/Flags.lean ====
section
/-! DEFINITION. STATUS as the host reads it (R37, 10_state.md), the numbers of its codes (R210), and the length
predicates that decide BOOL and ASTATE (R170, R174, R187, 43_stream.md). -/

namespace Sys2Proof.Machine

/-- R210: the number of a status code. -/
def scodeBits : StatusCode → BitVec 4
  | .ok => 0#4
  | .sentinel => 1#4
  | .errCrc => 2#4
  | .errHeader => 3#4
  | .errLength => 4#4
  | .errAlign => 5#4
  | .errState => 6#4
  | .errCapacity => 7#4
  | .errRange => 8#4
  | .errOpcode => 9#4

/-- R37: the number of an assembler state. -/
def astateBits : AState → BitVec 2
  | .empty => 0#2
  | .partly => 1#2
  | .complete => 2#2
  | .invalid => 3#2

/-- R37: STATUS, with SCODE in 3:0, BOOL in 4, ASTATE in 6:5, LCODE in 8:7 and 0 above. -/
def statusWord (s : State) : Word :=
  0#23 ++ s.lcode ++ astateBits s.astate ++ BitVec.ofBool s.boolFlag ++ scodeBits s.scode

/-- R170: `E(L)`, the expected triplet count; Variable has none. -/
def expectedTriplets : LengthClass → Option Nat
  | .byte3 => some 1
  | .byte6 => some 2
  | .byte9 => some 3
  | .unbounded => none

/-- R174: `CLS != Variable and n > E(CLS)`. -/
def exceedsClass (c : LengthClass) (n : Nat) : Bool :=
  match expectedTriplets c with
  | some e => decide (e < n)
  | none => false

/-- R174: `CLS != Variable and n == E(CLS)`. -/
def fillsClass (c : LengthClass) (n : Nat) : Bool :=
  match expectedTriplets c with
  | some e => decide (n = e)
  | none => false

/-- R187: the length predicate of S.VERIFY. -/
def lengthOk (c : LengthClass) (len : Nat) : Bool :=
  match expectedTriplets c with
  | some e => decide (len = 3 * e)
  | none => decide (3 ≤ len)

end Sys2Proof.Machine
end

