-- ==== Sys2Proof/Machine/Ops.lean ====
section
/-! DEFINITION. The shared operations: ending a command (R16, R17, 00_scope.md), bytes of BUF and STAGE (R15, R44, R45),
host registers (R31, R62, 20_memory.md), the reset input (R240, R241) and taking the host's next access. -/

namespace Sys2Proof.Machine

/-- What a command's `raise` or `finish` names; what it does not name is 0 (R16, R17). -/
structure Results where
  boolFlag : Bool := false
  res0 : Word := 0#32
  res1 : Word := 0#32
  rexp : Word := 0#32
  ecode : Word := 0#32
deriving DecidableEq, Repr

/-- Write SCODE, BOOL, RES0, RES1, REXP and ECODE, and nothing else. -/
def State.record (s : State) (c : StatusCode) (r : Results) : State :=
  { s with scode := c, boolFlag := r.boolFlag, res0 := r.res0, res1 := r.res1, rexp := r.rexp, ecode := r.ecode }

/-- R16: end a command with an error status. It is the block's whole exception entry (R217): what the raise line
changes besides is already in `s`. -/
def raise (c : StatusCode) (r : Results) (s : State) : State := s.record c r

/-- R17: end a command with OK. -/
def finish (r : Results) (s : State) : State := s.record .ok r

/-- R17, R122, R127: end a decode with SENTINEL and the instrument's error code. -/
def finishSentinel (code : Nat) (s : State) : State := s.record .sentinel { ecode := BitVec.ofNat 32 code }

/-- Replace ASTATE, LEN and SLEN. -/
def State.setStream (s : State) (a : AState) (len slen : Half) : State := { s with astate := a, len := len, slen := slen }

/-- Replace BUF. -/
def State.setBuf (s : State) (m : Memory) : State := { s with buf := m }

/-- Replace STAGE. -/
def State.setStage (s : State) (m : Memory) : State := { s with stage := m }

/-- The class `CLS = LENCODE(LCODE)` (R15, R41). -/
def clsOf (p : Params) (s : State) : LengthClass := p.lencode s.lcode

/-- The byte written at an index, if any. -/
def Memory.byteAt : Memory → Nat → Option Byte
  | [], _ => none
  | (b, v) :: m, a => if b = a then some v else Memory.byteAt m a

/-- Write one byte, keeping the indices strictly rising. -/
def Memory.put : Memory → Nat → Byte → Memory
  | [], a, v => [(a, v)]
  | (b, w) :: m, a, v =>
    if a < b then (a, v) :: (b, w) :: m
    else if a = b then (a, v) :: m
    else (b, w) :: Memory.put m a v

/-- R15 `MemRead(i, 1)`: none where BUF has no byte `i`; a byte nothing has written is a free value. -/
def memRead (p : Params) (s : State) (i : Nat) : Option Byte :=
  if i < p.cap then some ((Memory.byteAt s.buf i).getD (Config.unwrittenBufByte i)) else none

/-- R15 `MemWrite(i, 1, v)`: none where BUF has no byte `i`. -/
def memWrite (p : Params) (i : Nat) (v : Byte) (s : State) : Option State :=
  if i < p.cap then some (s.setBuf (Memory.put s.buf i v)) else none

/-- R15 `StageRead(i)`: none where STAGE has no byte `i`; a byte nothing has written is a free value. -/
def stageRead (p : Params) (s : State) (i : Nat) : Option Byte :=
  if i < p.cap then some ((Memory.byteAt s.stage i).getD (Config.unwrittenStageByte i)) else none

/-- R15 `StageWrite(i, v)`: none where STAGE has no byte `i`. -/
def stageWrite (p : Params) (i : Nat) (v : Byte) (s : State) : Option State :=
  if i < p.cap then some (s.setStage (Memory.put s.stage i v)) else none

/-- `StageRead(i)` for the `n` indices from `i` upward, in order. -/
def stageReadList (p : Params) (s : State) : Nat → Nat → Option (List Byte)
  | _, 0 => some []
  | i, n + 1 =>
    match stageRead p s i, stageReadList p s (i + 1) n with
    | some b, some bs => some (b :: bs)
    | _, _ => none

/-- `MemWrite` of a list of bytes from index `i` upward, in order. -/
def memWriteList (p : Params) : Nat → List Byte → State → Option State
  | _, [], s => some s
  | i, b :: bs, s =>
    match memWrite p i b s with
    | some s' => memWriteList p (i + 1) bs s'
    | none => none

/-- R31: the register at a host index. -/
def regOfIndex (i : RegIndex) : Reg :=
  match i.toNat with
  | 0x0 => .cmd
  | 0x1 => .opa
  | 0x2 => .opb
  | 0x3 => .res0
  | 0x4 => .res1
  | 0x5 => .rexp
  | 0x6 => .ecode
  | 0x7 => .status
  | 0x8 => .len
  | 0x9 => .slen
  | _ => .reserved

/-- R62: the value a host read returns; CMD and reserved indices read 0. -/
def readReg (s : State) : Reg → Word
  | .cmd => 0#32
  | .opa => s.opa
  | .opb => s.opb
  | .res0 => s.res0
  | .res1 => s.res1
  | .rexp => s.rexp
  | .ecode => s.ecode
  | .status => statusWord s
  | .len => s.len.setWidth 32
  | .slen => s.slen.setWidth 32
  | .reserved => 0#32

/-- R62: a host write of a register other than CMD: OPA and OPB store the value, all others ignore it. -/
def writeReg (s : State) (r : Reg) (v : Word) : State :=
  match r with
  | .opa => { s with opa := v }
  | .opb => { s with opb := v }
  | .cmd | .res0 | .res1 | .rexp | .ecode | .status | .len | .slen | .reserved => s

/-- R240, R241: assert the reset input. Every register takes its reset value at once; the host's own lists stay. -/
def assertReset (s : State) : State :=
  { State.reset with resetAsserted := true, inputs := s.inputs, reads := s.reads }

/-- R241: release the reset input. -/
def releaseReset (s : State) : State := { s with resetAsserted := false }

/-- The value that a host read returns now: free while reset is asserted (log 5). -/
def readData (s : State) (i : RegIndex) : Word :=
  if s.resetAsserted then Config.readDataInReset s.reads.length else readReg s (regOfIndex i)

/-- R30, R62, R241: the state after one input, and the command word to perform in the same step, if the input is a
write of CMD. While reset is asserted a write has no effect. -/
def takeInput (a : Input) (s : State) : State × Option Word :=
  match a with
  | .read i => ({ s with reads := readData s i :: s.reads }, none)
  | .write i v =>
    if s.resetAsserted then (s, none)
    else if regOfIndex i = .cmd then (s, some v)
    else (writeReg s (regOfIndex i) v, none)
  | .assertReset => (assertReset s, none)
  | .releaseReset => (releaseReset s, none)

/-- The host's next access, taken off the list (log 1). -/
def nextInput (s : State) : Option (Input × State) :=
  match s.inputs with
  | [] => none
  | a :: rest => some (a, { s with inputs := rest })

end Sys2Proof.Machine
end

