-- ==== Sys2Proof/Machine/Crc.lean ====
section
/-! DEFINITION. The CRC-8 polynomial validator (40_crc.md). -/

namespace Sys2Proof.Machine

/-- R100: one iteration on the 16-bit accumulator; the top bit is tested before the shift. -/
def crcStep (acc : Half) : Half := if acc.getLsbD 15 then (acc <<< 1) ^^^ 0x0700#16 else acc <<< 1

/-- `n` iterations of `crcStep`. -/
def crcIter : Nat → Half → Half
  | 0, acc => acc
  | n + 1, acc => crcIter n (crcStep acc)

/-- R100: the CRC of a byte pair, `255 - acc[15:8]` after 16 iterations. -/
def crc8 (b1 b2 : Byte) : Byte :=
  not8 ((crcIter 16 ((b1.setWidth 16 <<< 8) ||| b2.setWidth 16)).extractLsb' 8 8)

/-- R101: CRC.GEN. -/
def execCrcGen (s : State) : Host.Outcome State Fault Refusal :=
  let (b1, b2) := p16 s.opa
  .next (finish { res0 := zext8 (crc8 b1 b2) } s)

/-- R102: CRC.CHK. The status is OK whether or not the CRC matches. -/
def execCrcChk (s : State) : Host.Outcome State Fault Refusal :=
  let (b1, b2, x) := t24 s.opa
  let c := crc8 b1 b2
  .next (finish { boolFlag := c == x, res0 := zext8 c, res1 := zext8 x } s)

end Sys2Proof.Machine
end

