-- ==== Sys2Proof/Machine/Header.lean ====
section
/-! DEFINITION. The frame header bit-packer and unpacker (42_header.md). -/

namespace Sys2Proof.Machine

/-- R150: `t1 = direction | (length << 1) | (priority << 3) | (code << 4)`. -/
def headerByte (f : HeaderFields) : Byte :=
  f.dir.setWidth 8 ||| (f.lcode.setWidth 8 <<< 1) ||| (f.prio.setWidth 8 <<< 3) ||| (f.code.setWidth 8 <<< 4)

/-- R152: HDR.ENC. -/
def execHdrEnc (s : State) : Host.Outcome State Fault Refusal :=
  let f := hf s.opa
  let t0 := not8 f.addr
  let t1 := headerByte f
  .next (finish { res0 := packT24 t0 t1 (crc8 t0 t1) } s)

/-- R153: PRIO_VALID = {0, 1}. -/
def prioValid (x : Byte) : Bool := x == 0#8 || x == 1#8

/-- R153: LEN_VALID = {0, 1, 2, 3}. -/
def lenValid (x : Byte) : Bool := x == 0#8 || x == 1#8 || x == 2#8 || x == 3#8

/-- R153: DIR_VALID = {0, 1}. -/
def dirValid (x : Byte) : Bool := x == 0#8 || x == 1#8

/-- R153: HDR.DEC. The CRC is checked first; the ERR_HEADER branch is kept although no input takes it (R156). -/
def execHdrDec (s : State) : Host.Outcome State Fault Refusal :=
  let (t0, t1, t2) := t24 s.opa
  let c := crc8 t0 t1
  if c ≠ t2 then .next (raise .errCrc { res0 := zext8 c, res1 := zext8 t2 } s)
  else
    let addr := not8 t0
    let code := (t1 &&& 0xF0#8) >>> 4
    let prio := (t1 &&& 0x08#8) >>> 3
    let len := (t1 &&& 0x06#8) >>> 1
    let dir := t1 &&& 0x01#8
    if !prioValid prio || !lenValid len || !dirValid dir then .next (raise .errHeader {} s)
    else
      .next (finish
        { res0 := zext8 addr ||| (zext8 code <<< 8) ||| (zext8 prio <<< 12) ||| (zext8 len <<< 13) ||| (zext8 dir <<< 15) }
        s)

end Sys2Proof.Machine
end

