-- ==== Sys2Proof/Machine/Stream.lean ====
section
/-! DEFINITION. The triplet assembler and frame-length validator (43_stream.md). Each operation takes the parameters
of R7 as an argument; the command's meaning gives it those of the chip. -/

namespace Sys2Proof.Machine

/-- R172: S.INIT. BUF and STAGE keep their contents. -/
def initStream (s : State) : State :=
  finish {} ({ s with lcode := lc s.opa }.setStream .empty 0#16 0#16)

/-- R172: S.INIT. -/
def execSInit (s : State) : Host.Outcome State Fault Refusal := .next (initStream s)

/-- R173: S.PUSH. -/
def pushWith (p : Params) (s : State) : Host.Outcome State Fault Refusal :=
  if s.slen.toNat = p.cap then .next (raise .errCapacity {} s)
  else match stageWrite p s.slen.toNat (b8 s.opa) s with
    | none => .fault .noSuchByte
    | some s1 => .next (finish {} (s1.setStream s.astate s.len (s.slen + 1#16)))

/-- R173: S.PUSH. -/
def execSPush (s : State) : Host.Outcome State Fault Refusal := pushWith Config.chip s

/-- The state changes of an assembly error: `ASTATE ← Invalid, SLEN ← 0` (R174, R178). -/
def invalidate (s : State) : State := s.setStream .invalid s.len 0#16

/-- `SLEN ← 0` (R174, R178). -/
def dropStage (s : State) : State := s.setStream s.astate s.len 0#16

/-- R174: the first triplet of a byte list whose third byte is not its CRC: its index, counted from `j`, the computed
CRC and the received one. -/
def firstBadTriplet : Nat → List Byte → Option (Nat × Byte × Byte)
  | j, t0 :: t1 :: t2 :: rest =>
    let c := crc8 t0 t1
    if c ≠ t2 then some (j, c, t2) else firstBadTriplet (j + 1) rest
  | _, _ => none

/-- R174: the commit of S.APPEND, once all checks have passed. -/
def commitAppend (p : Params) (bs : List Byte) (s : State) : Host.Outcome State Fault Refusal :=
  let n := (s.len.toNat + s.slen.toNat) / 3
  match memWriteList p s.len.toNat bs s with
  | none => .fault .noSuchByte
  | some s1 =>
    .next (finish {}
      (s1.setStream (if fillsClass (clsOf p s) n then .complete else .partly) (s.len + s.slen) 0#16))

/-- R174: S.APPEND, with its checks in the order ERR_STATE, ERR_ALIGN, ERR_CRC, ERR_LENGTH, ERR_CAPACITY (R215). -/
def appendWith (p : Params) (s : State) : Host.Outcome State Fault Refusal :=
  let k := s.slen.toNat
  if s.astate = .complete ∨ s.astate = .invalid then .next (raise .errState {} (dropStage s))
  else if k = 0 ∨ k % 3 ≠ 0 then .next (raise .errAlign {} (invalidate s))
  else match stageReadList p s 0 k with
    | none => .fault .noSuchByte
    | some bs => match firstBadTriplet 0 bs with
      | some (j, c, t2) =>
        .next (raise .errCrc { res0 := zext8 c, res1 := zext8 t2, ecode := BitVec.ofNat 32 j } (invalidate s))
      | none =>
        if exceedsClass (clsOf p s) ((s.len.toNat + k) / 3) then .next (raise .errLength {} (invalidate s))
        else if p.cap < s.len.toNat + k then .next (raise .errCapacity {} (invalidate s))
        else commitAppend p bs s

/-- R174: S.APPEND. -/
def execSAppend (s : State) : Host.Outcome State Fault Refusal := appendWith Config.chip s

/-- R178: the overwrite of S.SETDATA, once its checks have passed. -/
def commitSetdata (p : Params) (s : State) : Host.Outcome State Fault Refusal :=
  match stageReadList p s 0 s.slen.toNat with
  | none => .fault .noSuchByte
  | some bs => match memWriteList p 0 bs s with
    | none => .fault .noSuchByte
    | some s1 => .next (finish {} (s1.setStream .complete s.slen 0#16))

/-- R178: S.SETDATA. -/
def setdataWith (p : Params) (s : State) : Host.Outcome State Fault Refusal :=
  let k := s.slen.toNat
  if s.astate ≠ .empty then .next (raise .errState {} (dropStage s))
  else match expectedTriplets (clsOf p s) with
    | some e =>
      if k ≠ 3 * e then .next (raise .errLength {} (invalidate s)) else commitSetdata p s
    | none =>
      if k = 0 ∨ k % 3 ≠ 0 then .next (raise .errAlign {} (invalidate s)) else commitSetdata p s

/-- R178: S.SETDATA. -/
def execSSetdata (s : State) : Host.Outcome State Fault Refusal := setdataWith Config.chip s

/-- R182, R183: the encode transform of triplet `j`, in place. -/
def encodeTriplet (p : Params) (j : Nat) (s : State) : Option State :=
  match memRead p s (3 * j), memRead p s (3 * j + 1) with
  | some r0, some r1 =>
    match memWrite p (3 * j) (not8 r0) s with
    | some s1 => memWrite p (3 * j + 2) (crc8 (not8 r0) r1) s1
    | none => none
  | _, _ => none

/-- R183: the encode transform of the first `n` triplets, in order. -/
def encodeTriplets (p : Params) : Nat → State → Option State
  | 0, s => some s
  | n + 1, s =>
    match encodeTriplets p n s with
    | some s1 => encodeTriplet p n s1
    | none => none

/-- R183: S.ENCODE. -/
def encodeWith (p : Params) (s : State) : Host.Outcome State Fault Refusal :=
  if s.astate ≠ .complete then .next (raise .errState {} s)
  else match encodeTriplets p (s.len.toNat / 3) s with
    | none => .fault .noSuchByte
    | some s1 => .next (finish {} s1)

/-- R183: S.ENCODE. -/
def execSEncode (s : State) : Host.Outcome State Fault Refusal := encodeWith Config.chip s

/-- R186: S.VERIFY. -/
def verifyWith (p : Params) (s : State) : State :=
  if s.astate = .invalid then raise .errState {} s
  else if lengthOk (clsOf p s) s.len.toNat then
    finish { boolFlag := true } (s.setStream (if s.astate = .partly then .complete else s.astate) s.len s.slen)
  else raise .errLength {} (s.setStream .invalid s.len s.slen)

/-- R186: S.VERIFY. -/
def execSVerify (s : State) : Host.Outcome State Fault Refusal := .next (verifyWith Config.chip s)

/-- R188: S.READ. -/
def readWith (p : Params) (s : State) : Host.Outcome State Fault Refusal :=
  let i := ix s.opa
  if s.len.toNat ≤ i then .next (raise .errRange {} s)
  else match memRead p s i with
    | some b => .next (finish { res0 := zext8 b } s)
    | none => .fault .noSuchByte

/-- R188: S.READ. -/
def execSRead (s : State) : Host.Outcome State Fault Refusal := readWith Config.chip s

/-- R190: S.READT. -/
def readtWith (p : Params) (s : State) : Host.Outcome State Fault Refusal :=
  let j := ix s.opa
  if s.len.toNat < 3 * j + 3 then .next (raise .errRange {} s)
  else match memRead p s (3 * j), memRead p s (3 * j + 1), memRead p s (3 * j + 2) with
    | some t0, some t1, some t2 => .next (finish { res0 := packT24 t0 t1 t2 } s)
    | _, _, _ => .fault .noSuchByte

/-- R190: S.READT. -/
def execSReadt (s : State) : Host.Outcome State Fault Refusal := readtWith Config.chip s

end Sys2Proof.Machine
end

