-- ==== Sys2Proof/Machine/System.lean ====
section
/-! DEFINITION. NOP and illegal command words (44_system.md). -/

namespace Sys2Proof.Machine

/-- R200: no effect; the one command that writes no result register. -/
def execNop (s : State) : Host.Outcome State Fault Refusal := .next s

/-- R201: a word that decodes to no command. -/
def execIllegal (s : State) : Host.Outcome State Fault Refusal := .next (raise .errOpcode {} s)

end Sys2Proof.Machine
end

