-- ==== Sys2Proof/Machine/Value.lean ====
section
/-! DEFINITION. The fixed-point payload decoders and encoder (41_value.md). -/

namespace Sys2Proof.Machine

/-- R120: what a decode gives, an exact pair (S, e) or an instrument error code. -/
inductive Decoded where
  | value (S e : Int)
  | sentinel (code : Nat)
deriving DecidableEq, Repr

/-- R120: how a decode ends: `RES0 ← to_u32(S)` and `REXP ← sext_8(e & 0xFF)`, or SENTINEL. -/
def finishDecoded (d : Decoded) (s : State) : State :=
  match d with
  | .value S e => finish { res0 := toU32 S, rexp := sext8 (crop8 e) } s
  | .sentinel code => finishSentinel code s

/-- R121: the 16-bit decode. -/
def dec16 (a b : Byte) : Decoded :=
  let raw := conv16 a b
  let e := ((raw &&& 0xC000#16) >>> 14).toNat
  let m := (raw &&& 0x3FFF#16).toNat
  if 0x3FE0 ≤ m ∧ m ≤ 0x3FFF then .sentinel (m - 16352)
  else .value ((m : Int) - 2048) e

/-- R121: VAL.DEC16. -/
def execValDec16 (s : State) : Host.Outcome State Fault Refusal :=
  let (a, b) := p16 s.opa
  .next (finishDecoded (dec16 a b) s)

/-- R125, step 4a: sign-extend the 27-bit field when bit 26 is set. -/
def extend27 (m : Word) : Word :=
  if m &&& 0x04000000#32 = 0x04000000#32 then m ||| 0xF8000000#32 else m

/-- R125: the 32-bit decode. -/
def dec32 (a b c d : Byte) : Decoded :=
  let raw := conv32 (conv16 a b) (conv16 c d)
  let e : Int := (((0xFF#8 - a) >>> 3).toNat : Int) - 15
  let m := raw &&& 0x07FFFFFF#32
  if m.toNat < 100000000 + 0x02000000 then .value (toS32 (extend27 m + 0x02000000#32)) e
  else .sentinel (m.toNat - 0x02000000 - 100000000)

/-- R125: VAL.DEC32. -/
def execValDec32 (s : State) : Host.Outcome State Fault Refusal :=
  let (a, b, c, d) := w4 s.opa
  .next (finishDecoded (dec32 a b c d) s)

/-- R130: the masked word `t`, "mask to u32, subtract 0x02000000", then the low 27 bits when bit 26 is set. -/
def encMask (S : Int) : Word :=
  let t := toU32 S - 0x02000000#32
  if t.getLsbD 26 then t &&& 0x07FFFFFF#32 else t

/-- R130, R131: the packed word `w`, or none for ERR_RANGE. The exponent is checked first (R215). -/
def enc32 (S e : Int) : Option Word :=
  if e < -15 ∨ 16 < e then none
  else
    let t := encMask S
    if t.extractLsb' 27 5 ≠ 0#5 then none
    else some ((BitVec.ofInt 32 (e + 15) <<< 27) ||| t)

/-- R130: a raw pair as a wire triplet, the first byte complemented and the CRC over the wire bytes. -/
def wirePair (r0 r1 : Byte) : Word := packT24 (not8 r0) r1 (crc8 (not8 r0) r1)

/-- R130: VAL.ENC32. -/
def execValEnc32 (s : State) : Host.Outcome State Fault Refusal :=
  let S := seS s.opa
  let e := seE s.opb
  match enc32 S e with
  | none => .next (raise .errRange {} s)
  | some w =>
    let (p0, p1, p2, p3) := w4 w
    .next (finish { res0 := wirePair p0 p1, res1 := wirePair p2 p3, rexp := sext8 (crop8 e) } s)

end Sys2Proof.Machine
end

