-- ==== Sys2Proof/Machine/Dispatch.lean ====
section
/-! DEFINITION. The dispatch of commands to their meanings: one arm for each row of R85. -/

namespace Sys2Proof.Machine

def exec (i : Instr) (s : State) : Host.Outcome State Fault Refusal :=
  match i with
  | .nop => Sys2Proof.Machine.execNop s
  | .crcGen => Sys2Proof.Machine.execCrcGen s
  | .crcChk => Sys2Proof.Machine.execCrcChk s
  | .valDec16 => Sys2Proof.Machine.execValDec16 s
  | .valDec32 => Sys2Proof.Machine.execValDec32 s
  | .valEnc32 => Sys2Proof.Machine.execValEnc32 s
  | .hdrEnc => Sys2Proof.Machine.execHdrEnc s
  | .hdrDec => Sys2Proof.Machine.execHdrDec s
  | .sInit => Sys2Proof.Machine.execSInit s
  | .sPush => Sys2Proof.Machine.execSPush s
  | .sAppend => Sys2Proof.Machine.execSAppend s
  | .sSetdata => Sys2Proof.Machine.execSSetdata s
  | .sEncode => Sys2Proof.Machine.execSEncode s
  | .sVerify => Sys2Proof.Machine.execSVerify s
  | .sRead => Sys2Proof.Machine.execSRead s
  | .sReadt => Sys2Proof.Machine.execSReadt s

end Sys2Proof.Machine
end

