-- ==== Sys2Proof/Machine/Step.lean ====
section
/-! DEFINITION. One step: the host's next access, with the command that a write of CMD performs in the same step (R18,
R30). -/

namespace Sys2Proof.Machine

/-- R81: perform the command a word encodes, or R201. -/
def runCommand (w : Word) (s : State) : Host.Outcome State Fault Refusal :=
  match decode w with
  | .ok i => exec i s
  | .error _ => execIllegal s

/-- R30: take the next access; with none pending nothing happens, since the block never steps by itself (log 3). -/
def step (s : State) : Host.Outcome State Fault Refusal :=
  match nextInput s with
  | none => .next s
  | some (a, s1) =>
    match takeInput a s1 with
    | (s2, none) => .next s2
    | (s2, some w) => runCommand w s2

/-- The state whose next step performs the command word of a table row: a host write of CMD put before all other
accesses, with the reset input released (log 1). -/
def State.withFetchWord (s : State) (nbits w : Nat) : State :=
  { s with resetAsserted := false, inputs := .write 0x0#4 (tableWord nbits w) :: s.inputs }

end Sys2Proof.Machine
end

