-- ==== Sys2Proof/Safety.lean ====
section
/-! DEFINITION. What the statements speak of: the safe states of R46 (10_state.md), runs from reset (R254), the part of
a state that R254 lets anyone observe, and two meanings written apart from the machine's own: the GF(2) division of
R103 and the domain D of R132. -/

namespace Sys2Proof.Safety

open Sys2Proof.Machine

/-- R46, with what R42 to R45 and R49 say of the two buffers: both are in canonical form and inside CAP, and every byte
below LEN or SLEN has been written. -/
structure SafeState (p : Params) (s : State) : Prop where
  bufWf : Memory.wf s.buf
  stageWf : Memory.wf s.stage
  bufInside : ∀ c ∈ s.buf, c.1 < p.cap
  stageInside : ∀ c ∈ s.stage, c.1 < p.cap
  lenTriplets : s.len.toNat % 3 = 0
  lenCap : s.len.toNat ≤ p.cap
  slenCap : s.slen.toNat ≤ p.cap
  bufWritten : ∀ i < s.len.toNat, (Memory.byteAt s.buf i).isSome
  stageWritten : ∀ i < s.slen.toNat, (Memory.byteAt s.stage i).isSome
  emptyLen : s.astate = .empty → s.len.toNat = 0
  partlyLen : s.astate = .partly →
    3 ≤ s.len.toNat ∧ ∀ e, expectedTriplets (clsOf p s) = some e → s.len.toNat < 3 * e
  completeFixedLen : ∀ e, s.astate = .complete → expectedTriplets (clsOf p s) = some e → s.len.toNat = 3 * e
  completeVariableLen : s.astate = .complete → expectedTriplets (clsOf p s) = none → 3 ≤ s.len.toNat

/-- The reset state of a host that will make these accesses (R254; log 1). -/
def hostStart (inputs : List Input) : State := { State.reset with inputs := inputs }

/-- Equal but for the bytes that no command can observe: BUF at LEN and above, STAGE at SLEN and above (R49, R254). -/
structure SameVisible (p : Params) (s t : State) : Prop where
  registers : t = { s with buf := t.buf, stage := t.stage }
  bufBytes : ∀ i < s.len.toNat, memRead p t i = memRead p s i
  stageBytes : ∀ i < s.slen.toNat, stageRead p t i = stageRead p s i

/-- The commands that read only OPA and OPB (R213). -/
def isPure : Instr → Bool
  | .crcGen | .crcChk | .valDec16 | .valDec32 | .valEnc32 | .hdrEnc | .hdrDec => true
  | .nop | .sInit | .sPush | .sAppend | .sSetdata | .sEncode | .sVerify | .sRead | .sReadt => false

/-- The domain D of R132. -/
def inD (S : Int) : Prop := (-33554432 ≤ S ∧ S ≤ 32891135) ∨ (33554432 ≤ S ∧ S ≤ 100663295)

/-- One step of GF(2) long division by x^8 + x^2 + x + 1 (0x107): cancel the term x^(n+8), if it is there. -/
def cancelTerm (n : Nat) (v : BitVec 24) : BitVec 24 :=
  if v.getLsbD (n + 8) then v ^^^ (0x107#24 <<< n) else v

/-- R103: the remainder left after cancelling the terms x^(n+7) down to x^8. -/
def gf2Rem : Nat → BitVec 24 → BitVec 24
  | 0, v => v
  | n + 1, v => gf2Rem n (cancelTerm n v)

/-- Bits hi to lo of a register as a number: `v[hi:lo]` (R8), with `n = hi - lo + 1`. -/
def bitsAt (w : Word) (lo n : Nat) : Nat := w.toNat / 2 ^ lo % 2 ^ n

/-- R132: the pair bytes of an encode's two triplets, RES0[23:8] then RES1[23:8], as one word. -/
def pairBytes (t : State) : Word := BitVec.ofNat 32 (bitsAt t.res0 8 16 * 2 ^ 16 + bitsAt t.res1 8 16)

/-- R174: triplet `j` of STAGE carries its own CRC. -/
def StagedTripletOk (p : Params) (s : State) (j : Nat) : Prop :=
  ∃ t0 t1, stageRead p s (3 * j) = some t0 ∧ stageRead p s (3 * j + 1) = some t1 ∧
    stageRead p s (3 * j + 2) = some (crc8 t0 t1)

/-- The statuses that a command may leave (R210). -/
def mayLeave : Instr → StatusCode → Bool
  | .nop, _ => true
  | .crcGen, c | .crcChk, c | .hdrEnc, c | .sInit, c => c == .ok
  | .valDec16, c | .valDec32, c => c == .ok || c == .sentinel
  | .valEnc32, c | .sRead, c | .sReadt, c => c == .ok || c == .errRange
  | .hdrDec, c => c == .ok || c == .errCrc
  | .sPush, c => c == .ok || c == .errCapacity
  | .sAppend, c => c == .ok || c == .errState || c == .errAlign || c == .errCrc || c == .errLength || c == .errCapacity
  | .sSetdata, c => c == .ok || c == .errState || c == .errLength || c == .errAlign
  | .sEncode, c => c == .ok || c == .errState
  | .sVerify, c => c == .ok || c == .errState || c == .errLength

end Sys2Proof.Safety
end

