-- ==== Sys2Proof/Certificates/Slice0/Obligations.lean ====
section
/-! DEFINITION. The statements: what the rules of spec/ say of the block, in the model's words. Each docstring names
the rule. Numbers are written out apart from the machine's own bit operations where a rule gives arithmetic. -/

open Sys2Proof Sys2Proof.Machine Sys2Proof.Safety

/-! ### Parameters and primitives -/

/-- R7: CAP_TRIPLETS is 3 to 21845, CAP is three times it, and LENCODE is a bijection with LENCODE(0) = Byte3. -/
def Obligations.ParametersAreWithinTheirBounds : Prop :=
  3 ≤ Config.chip.capTriplets ∧ Config.chip.capTriplets ≤ 21845 ∧ Config.chip.cap = 3 * Config.chip.capTriplets ∧
  Config.chip.lencode 0#2 = .byte3 ∧ Function.Bijective Config.chip.lencode

/-- R10, R11, R64: a pair is a big-endian 16-bit word with its first byte complemented, and two pairs a 32-bit word. -/
def Obligations.PairsAreBigEndianWithFirstByteComplemented : Prop :=
  (∀ a b : Byte, (conv16 a b).toNat = (255 - a.toNat) * 256 + b.toNat) ∧
  (∀ hi lo : Half, (conv32 hi lo).toNat = hi.toNat * 65536 + lo.toNat)

/-- R12: to_s32 is the two's-complement reading of a word, to_u32 keeps the low 32 bits (R9), and
`to_u32(to_s32(u)) = u`. -/
def Obligations.SignedReinterpretationRoundTrips : Prop :=
  (∀ u : Word, toS32 u = (if u.toNat < 2 ^ 31 then (u.toNat : Int) else (u.toNat : Int) - 2 ^ 32)) ∧
  (∀ v : Int, ((toU32 v).toNat : Int) = v % 2 ^ 32) ∧
  (∀ u : Word, toU32 (toS32 u) = u)

/-- R13: the one's complement of a byte is `255 - x`, equals `x ^ 0xFF` and is its own inverse. -/
def Obligations.OnesComplementIsItsOwnInverse : Prop :=
  ∀ x : Byte, (not8 x).toNat = 255 - x.toNat ∧ not8 x = x ^^^ 0xFF#8 ∧ not8 (not8 x) = x

/-! ### Reset -/

/-- R240: every register at its reset value; and no command can observe the contents of BUF and STAGE: whatever they
hold, each command completes from reset and leaves the same visible state. -/
def Obligations.ResetValuesAndUnobservableBuffers : Prop :=
  (∀ ix : RegIndex, readReg State.reset (regOfIndex ix) = 0#32) ∧
  State.reset.opa = 0#32 ∧ State.reset.opb = 0#32 ∧ State.reset.res0 = 0#32 ∧ State.reset.res1 = 0#32 ∧
  State.reset.rexp = 0#32 ∧ State.reset.ecode = 0#32 ∧
  State.reset.scode = .ok ∧ State.reset.boolFlag = false ∧ State.reset.astate = .empty ∧ State.reset.lcode = 0#2 ∧
  clsOf Config.chip State.reset = .byte3 ∧ State.reset.len = 0#16 ∧ State.reset.slen = 0#16 ∧
  (∀ (i : Instr) (b g : Memory), ∃ t u, exec i State.reset = .next t ∧
    exec i { State.reset with buf := b, stage := g } = .next u ∧ SameVisible Config.chip t u)

/-- R242: the state after reset is the one that S.INIT with OPA = 0 leaves: Empty, Byte3, no bytes; and S.INIT with
OPA = 0 gives every state the stream registers of reset. -/
def Obligations.ResetEqualsInitWithZeroOperand : Prop :=
  exec .sInit State.reset = .next State.reset ∧
  ∀ s : State, s.opa = 0#32 → ∃ t, exec .sInit s = .next t ∧
    t.lcode = State.reset.lcode ∧ t.astate = .empty ∧ State.reset.astate = .empty ∧
    clsOf Config.chip t = .byte3 ∧ clsOf Config.chip State.reset = .byte3 ∧
    t.len = 0#16 ∧ State.reset.len = 0#16 ∧ t.slen = 0#16 ∧ State.reset.slen = 0#16 ∧
    t.res0 = State.reset.res0 ∧ t.res1 = State.reset.res1 ∧ t.rexp = State.reset.rexp ∧ t.ecode = State.reset.ecode ∧
    State.reset.res0 = 0#32 ∧ State.reset.res1 = 0#32 ∧ State.reset.rexp = 0#32 ∧ State.reset.ecode = 0#32

/-- R240, R241 (log 4): asserting reset puts every register at its reset value; releasing it changes only the input's
level. -/
def Obligations.ResetInputGivesTheResetState : Prop :=
  ∀ (s : State) (rest : List Input),
    step { s with inputs := .assertReset :: rest } =
      .next { State.reset with resetAsserted := true, inputs := rest, reads := s.reads } ∧
    step { s with inputs := .releaseReset :: rest } = .next { s with resetAsserted := false, inputs := rest }

/-- R241: "While reset is asserted, host accesses have no effect." The value a read returns is the model's free value
(log 5); the statement holds for every value. -/
def Obligations.AccessesUnderResetHaveNoEffect : Prop :=
  ∀ (s : State) (ix : RegIndex) (v : Word) (rest : List Input), s.resetAsserted = true →
    step { s with inputs := .write ix v :: rest } = .next { s with inputs := rest } ∧
    ∃ d, step { s with inputs := .read ix :: rest } = .next { s with inputs := rest, reads := d :: s.reads }

/-! ### Host accesses and decoding -/

/-- R62, every bullet: reads return the register named and change nothing of the block; CMD and reserved indices read
0; writes of OPA and OPB store; a write of CMD performs the command; other writes are ignored. The list `reads` is the
model's own record of what was returned (log 2). -/
def Obligations.HostAccessesReachTheNamedRegister : Prop :=
  ∀ (s : State) (rest : List Input), s.resetAsserted = false →
    (∀ ix : RegIndex, step { s with inputs := .read ix :: rest } =
      .next { s with
        inputs := rest
        reads := (match ix.toNat with
          | 1 => s.opa | 2 => s.opb | 3 => s.res0 | 4 => s.res1 | 5 => s.rexp | 6 => s.ecode | 7 => statusWord s
          | 8 => BitVec.ofNat 32 s.len.toNat | 9 => BitVec.ofNat 32 s.slen.toNat | _ => 0#32) :: s.reads }) ∧
    (∀ v, step { s with inputs := .write 1#4 v :: rest } = .next { s with inputs := rest, opa := v }) ∧
    (∀ v, step { s with inputs := .write 2#4 v :: rest } = .next { s with inputs := rest, opb := v }) ∧
    (∀ ix v, 3 ≤ ix.toNat → step { s with inputs := .write ix v :: rest } = .next { s with inputs := rest }) ∧
    (∀ w, step { s with inputs := .write 0#4 w :: rest } =
      (match decode w with
        | .ok i => exec i { s with inputs := rest }
        | .error _ => .next (raise .errOpcode {} { s with inputs := rest })))

/-- R37: SCODE in bits 3:0 with the numbers of R210, BOOL in 4, ASTATE in 6:5, LCODE in 8:7, and 31:9 read 0. -/
def Obligations.StatusPacksItsFields : Prop :=
  ∀ s : State,
    bitsAt (statusWord s) 0 4 = (match s.scode with
      | .ok => 0 | .sentinel => 1 | .errCrc => 2 | .errHeader => 3 | .errLength => 4 | .errAlign => 5
      | .errState => 6 | .errCapacity => 7 | .errRange => 8 | .errOpcode => 9) ∧
    bitsAt (statusWord s) 4 1 = (if s.boolFlag then 1 else 0) ∧
    bitsAt (statusWord s) 5 2 = (match s.astate with
      | .empty => 0 | .partly => 1 | .complete => 2 | .invalid => 3) ∧
    bitsAt (statusWord s) 7 2 = s.lcode.toNat ∧
    bitsAt (statusWord s) 9 23 = 0

/-- R70: reading a register twice with no write between returns the same value; R71: a read of an operand register
returns the latest write. -/
def Obligations.ReadsAreStableAndSeeTheLatestWrite : Prop :=
  ∀ (s : State) (ix : RegIndex) (v : Word) (rest : List Input), s.resetAsserted = false →
    (∃ d, core.run 2 { s with inputs := .read ix :: .read ix :: rest } =
      .next { s with inputs := rest, reads := d :: d :: s.reads }) ∧
    core.run 2 { s with inputs := .write 1#4 v :: .read 1#4 :: rest } =
      .next { s with inputs := rest, opa := v, reads := v :: s.reads } ∧
    core.run 2 { s with inputs := .write 2#4 v :: .read 2#4 :: rest } =
      .next { s with inputs := rest, opb := v, reads := v :: s.reads }

/-- R18, R81: a step whose access is a write of a command word to CMD is `exec` of the decoded command, in the state
with that access taken off the host's list, and with nothing else around it. -/
def Obligations.StepRunsTheDecodedCommand : Prop :=
  ∀ (s : State) (w : Word) (rest : List Input) (i : Instr),
    s.resetAsserted = false → s.inputs = .write 0#4 w :: rest → decode w = .ok i → i.wf = true →
    step s = exec i { s with inputs := rest }

/-- R86, R201: a write to CMD of any illegal word reports ERR_OPCODE, zeroes the result registers and changes nothing
else. `runCommand` is what a step does with a word written to CMD (HostAccessesReachTheNamedRegister). -/
def Obligations.IllegalWordsReportErrOpcode : Prop :=
  ∀ (s : State) (w : Word),
    (bitsAt w 8 24 ≠ 0 ∨ (0x03 ≤ bitsAt w 0 8 ∧ bitsAt w 0 8 ≤ 0x0F) ∨ (0x13 ≤ bitsAt w 0 8 ∧ bitsAt w 0 8 ≤ 0x1F) ∨
      (0x22 ≤ bitsAt w 0 8 ∧ bitsAt w 0 8 ≤ 0x2F) ∨ (0x38 ≤ bitsAt w 0 8 ∧ bitsAt w 0 8 ≤ 0xFF)) →
    runCommand w s = .next { s with
      scode := .errOpcode, boolFlag := false, res0 := 0#32, res1 := 0#32, rexp := 0#32, ecode := 0#32 }

/-- R80, R81, R85, R86: the decoder and the encoder are inverse to each other on all 2^32 words, and the words that
decode are exactly those that R86 leaves. -/
def Obligations.DecodeAndEncodeAreInverse : Prop :=
  (∀ i : Instr, i.wf = true → decode (encode i) = .ok i) ∧
  (∀ (w : Word) (i : Instr), decode w = .ok i → w = encode i) ∧
  (∀ w : Word, (∃ i, decode w = .ok i) ↔ wellFormedWord w = true)

/-- R85: the sixteen command words, written out from the opcode map. -/
def Obligations.OpcodeMapWordsDecode : Prop :=
  decode 0x00000000#32 = .ok .nop ∧ decode 0x00000001#32 = .ok .crcGen ∧ decode 0x00000002#32 = .ok .crcChk ∧
  decode 0x00000010#32 = .ok .valDec16 ∧ decode 0x00000011#32 = .ok .valDec32 ∧ decode 0x00000012#32 = .ok .valEnc32 ∧
  decode 0x00000020#32 = .ok .hdrEnc ∧ decode 0x00000021#32 = .ok .hdrDec ∧ decode 0x00000030#32 = .ok .sInit ∧
  decode 0x00000031#32 = .ok .sPush ∧ decode 0x00000032#32 = .ok .sAppend ∧ decode 0x00000033#32 = .ok .sSetdata ∧
  decode 0x00000034#32 = .ok .sEncode ∧ decode 0x00000035#32 = .ok .sVerify ∧ decode 0x00000036#32 = .ok .sRead ∧
  decode 0x00000037#32 = .ok .sReadt

/-- R30, R254 (log 3): with no access to come, nothing happens. -/
def Obligations.IdleStepChangesNothing : Prop := ∀ s : State, s.inputs = [] → step s = .next s

/-- R200: NOP has no effect at all: it writes no register, not even the result registers. -/
def Obligations.NopChangesNothing : Prop := ∀ s : State, exec .nop s = .next s

/-! ### Rules about all commands -/

/-- R32: commands never write OPA or OPB, nor what is the host's (log 1, log 2) or the platform's. -/
def Obligations.CommandsNeverWriteOperands : Prop :=
  ∀ (i : Instr) (s t : State), exec i s = .next t →
    t.opa = s.opa ∧ t.opb = s.opb ∧ t.inputs = s.inputs ∧ t.reads = s.reads ∧ t.resetAsserted = s.resetAsserted

/-- R31, R37, R60: what each command may change; every other register, every other byte of BUF and of STAGE is as
before. -/
def Obligations.OnlyTheNamedWritersChangeState : Prop :=
  ∀ (i : Instr) (s t : State), exec i s = .next t →
    (t.lcode ≠ s.lcode → i = .sInit) ∧
    (t.len ≠ s.len → i = .sInit ∨ i = .sAppend ∨ i = .sSetdata) ∧
    (t.slen ≠ s.slen → i = .sInit ∨ i = .sPush ∨ i = .sAppend ∨ i = .sSetdata) ∧
    (t.astate ≠ s.astate → i = .sInit ∨ i = .sAppend ∨ i = .sSetdata ∨ i = .sVerify) ∧
    (∀ a, memRead Config.chip t a ≠ memRead Config.chip s a → i = .sAppend ∨ i = .sSetdata ∨ i = .sEncode) ∧
    (∀ a, stageRead Config.chip t a ≠ stageRead Config.chip s a → i = .sPush) ∧
    (t.scode ≠ s.scode ∨ t.boolFlag ≠ s.boolFlag ∨ t.res0 ≠ s.res0 ∨ t.res1 ≠ s.res1 ∨ t.rexp ≠ s.rexp ∨
      t.ecode ≠ s.ecode → i ≠ .nop)

/-- R16, R39, R210: what a command other than NOP leaves in the results by status. After an error all are 0, but for
the CRC diagnostics; after SENTINEL only ECODE is set; BOOL is set by CRC.CHK and S.VERIFY alone. -/
def Obligations.StatusesFixTheUnnamedResults : Prop :=
  ∀ (i : Instr) (s t : State), i ≠ .nop → exec i s = .next t →
    (t.scode ≠ .ok → t.boolFlag = false ∧ t.rexp = 0#32) ∧
    (t.scode ≠ .ok → t.scode ≠ .errCrc → t.res0 = 0#32 ∧ t.res1 = 0#32) ∧
    (t.scode ≠ .sentinel → t.scode ≠ .errCrc → t.ecode = 0#32) ∧
    (t.boolFlag = true → i = .crcChk ∨ i = .sVerify)

/-- R210, R156: the statuses that each command can leave. -/
def Obligations.EachCommandLeavesOnlyItsStatuses : Prop :=
  ∀ (i : Instr) (s t : State), exec i s = .next t → mayLeave i t.scode = true

/-- R213: each pure command completes, and its results depend on OPA and OPB alone. -/
def Obligations.PureCommandsDependOnOperandsOnly : Prop :=
  ∀ (i : Instr) (s u : State), isPure i = true → u.opa = s.opa → u.opb = s.opb →
    ∃ t v, exec i s = .next t ∧ exec i u = .next v ∧ v.scode = t.scode ∧ v.boolFlag = t.boolFlag ∧
      v.res0 = t.res0 ∧ v.res1 = t.res1 ∧ v.rexp = t.rexp ∧ v.ecode = t.ecode

/-- R213: the frame of the pure commands and of NOP: the result registers may change and nothing else, no byte of BUF
or STAGE among it. -/
def Obligations.PureCommandsTouchOnlyTheResults : Prop :=
  ∀ (i : Instr) (s t : State), isPure i = true ∨ i = .nop → exec i s = .next t →
    t = { s with scode := t.scode, boolFlag := t.boolFlag, res0 := t.res0, res1 := t.res1, rexp := t.rexp,
                 ecode := t.ecode } ∧
    (∀ a, memRead Config.chip t a = memRead Config.chip s a ∧ stageRead Config.chip t a = stageRead Config.chip s a)

/-- The frame of S.INIT, S.VERIFY, S.READ and S.READT (R172, R186, R188, R190): operands kept, and no byte of BUF or
STAGE stored to. -/
def Obligations.NonStoringStreamCommandsKeepAllBytes : Prop :=
  ∀ (i : Instr) (s t : State), i = .sInit ∨ i = .sVerify ∨ i = .sRead ∨ i = .sReadt → exec i s = .next t →
    t.opa = s.opa ∧ t.opb = s.opb ∧
    (∀ a, memRead Config.chip t a = memRead Config.chip s a ∧ stageRead Config.chip t a = stageRead Config.chip s a)

/-! ### CRC -/

/-- R100: crc8 as the rule writes it, with the accumulator as a number: sixteen shifts, the top bit tested before each,
then `255 - acc[15:8]`. -/
def Obligations.CrcIsTheSixteenStepAccumulator : Prop :=
  ∀ b1 b2 : Byte, (crc8 b1 b2).toNat =
    255 - (fun acc : Nat => if 2 ^ 15 ≤ acc then (acc * 2 % 2 ^ 16) ^^^ 0x0700 else acc * 2 % 2 ^ 16)^[16]
      (b1.toNat * 256 + b2.toNat) / 256

/-- R103: crc8 is the complement of the remainder of b1·x^16 + b2·x^8 divided by x^8 + x^2 + x + 1 over GF(2). -/
def Obligations.CrcIsThePolynomialRemainder : Prop :=
  ∀ b1 b2 : Byte, crc8 b1 b2 = (gf2Rem 16 (b1 ++ b2 ++ 0#8)).setWidth 8 ^^^ 0xFF#8

/-- R104: flipping any single bit of the pair changes the CRC, and for each b1 the map from b2 to it is a bijection. -/
def Obligations.CrcDetectsEverySingleBitError : Prop :=
  (∀ (b1 b2 : Byte) (k : Nat), k < 8 →
    crc8 (b1 ^^^ (1#8 <<< k)) b2 ≠ crc8 b1 b2 ∧ crc8 b1 (b2 ^^^ (1#8 <<< k)) ≠ crc8 b1 b2) ∧
  (∀ b1 : Byte, Function.Bijective fun b2 => crc8 b1 b2)

/-- R101: CRC.GEN leaves the CRC of OPA[15:8] and OPA[7:0] in RES0, with all that it leaves unchanged. -/
def Obligations.CrcGenWritesTheCrcOfThePair : Prop :=
  ∀ s : State, exec .crcGen s = .next { s with
    scode := .ok, boolFlag := false, res1 := 0#32, rexp := 0#32, ecode := 0#32
    res0 := BitVec.ofNat 32 (crc8 (BitVec.ofNat 8 (bitsAt s.opa 8 8)) (BitVec.ofNat 8 (bitsAt s.opa 0 8))).toNat }

/-- R102: CRC.CHK compares the CRC of OPA[23:16] and OPA[15:8] with OPA[7:0] and leaves both. -/
def Obligations.CrcChkComparesAndReportsBoth : Prop :=
  ∀ s : State,
    let c := crc8 (BitVec.ofNat 8 (bitsAt s.opa 16 8)) (BitVec.ofNat 8 (bitsAt s.opa 8 8))
    exec .crcChk s = .next { s with
      scode := .ok, boolFlag := decide (c.toNat = bitsAt s.opa 0 8), res0 := BitVec.ofNat 32 c.toNat
      res1 := BitVec.ofNat 32 (bitsAt s.opa 0 8), rexp := 0#32, ecode := 0#32 }

/-! ### Values -/

/-- R121, R122: VAL.DEC16, in integer arithmetic on the two wire bytes. -/
def Obligations.Dec16GivesValueOrSentinel : Prop :=
  ∀ s : State,
    let raw := (255 - bitsAt s.opa 8 8) * 256 + bitsAt s.opa 0 8
    let m := raw % 2 ^ 14
    exec .valDec16 s = .next (
      if 0x3FE0 ≤ m then
        { s with scode := .sentinel, boolFlag := false, res0 := 0#32, res1 := 0#32, rexp := 0#32
                 ecode := BitVec.ofNat 32 (m - 16352) }
      else
        { s with scode := .ok, boolFlag := false, res0 := BitVec.ofInt 32 ((m : Int) - 2048), res1 := 0#32
                 rexp := BitVec.ofNat 32 (raw / 2 ^ 14), ecode := 0#32 })

/-- R125, R126, R127: VAL.DEC32, with the value branch in the closed form of R126. -/
def Obligations.Dec32GivesValueOrSentinel : Prop :=
  ∀ s : State,
    let raw := (255 - bitsAt s.opa 24 8) * 2 ^ 24 + bitsAt s.opa 16 8 * 2 ^ 16 + (255 - bitsAt s.opa 8 8) * 2 ^ 8 +
      bitsAt s.opa 0 8
    let m := raw % 2 ^ 27
    exec .valDec32 s = .next (
      if 0x07F5E100 ≤ m then
        { s with scode := .sentinel, boolFlag := false, res0 := 0#32, res1 := 0#32, rexp := 0#32
                 ecode := BitVec.ofNat 32 (m - 0x07F5E100) }
      else
        { s with scode := .ok, boolFlag := false, res1 := 0#32, ecode := 0#32
                 res0 := BitVec.ofInt 32 (if m < 0x04000000 then (m : Int) + 33554432 else (m : Int) - 100663296)
                 rexp := BitVec.ofInt 32 (((raw / 2 ^ 27 : Nat) : Int) - 15) })

/-- R130, R131: VAL.ENC32, in integer arithmetic; ERR_RANGE in exactly the two cases of R131. -/
def Obligations.Enc32PacksOrReportsErrRange : Prop :=
  ∀ s : State,
    let e : Int := (bitsAt s.opb 0 8 : Int) - 256 * (bitsAt s.opb 7 1 : Int)
    let t := (s.opa.toNat + (2 ^ 32 - 0x02000000)) % 2 ^ 32
    let tm := if t / 2 ^ 26 % 2 = 1 then t % 2 ^ 27 else t
    let w := (e + 15).toNat * 2 ^ 27 + tm
    let a := 255 - w / 2 ^ 24
    let p1 := w / 2 ^ 16 % 2 ^ 8
    let c := 255 - w / 2 ^ 8 % 2 ^ 8
    let p3 := w % 2 ^ 8
    exec .valEnc32 s = .next (
      if e < -15 ∨ 16 < e ∨ tm / 2 ^ 27 ≠ 0 then
        { s with scode := .errRange, boolFlag := false, res0 := 0#32, res1 := 0#32, rexp := 0#32, ecode := 0#32 }
      else
        { s with
          scode := .ok, boolFlag := false, ecode := 0#32, rexp := BitVec.ofInt 32 e
          res0 := BitVec.ofNat 32 (a * 2 ^ 16 + p1 * 2 ^ 8 + (crc8 (BitVec.ofNat 8 a) (BitVec.ofNat 8 p1)).toNat)
          res1 := BitVec.ofNat 32 (c * 2 ^ 16 + p3 * 2 ^ 8 + (crc8 (BitVec.ofNat 8 c) (BitVec.ofNat 8 p3)).toNat) })

/-- R132, its three sentences: on D the encode succeeds and its pair bytes decode to the same (S, e); off D the round
trip fails; and what decodes to OK (S, e) is encoded again to the same four bytes. -/
def Obligations.ValueRoundTripHoldsExactlyOnD : Prop :=
  (∀ (s : State) (S e : Int), inD S → -15 ≤ e → e ≤ 16 → s.opa = BitVec.ofInt 32 S →
    BitVec.ofNat 8 s.opb.toNat = BitVec.ofInt 8 e →
    ∃ t, exec .valEnc32 s = .next t ∧ t.scode = .ok ∧ ∀ u : State, u.opa = pairBytes t →
      ∃ v, exec .valDec32 u = .next v ∧ v.scode = .ok ∧ v.res0 = BitVec.ofInt 32 S ∧ v.rexp = BitVec.ofInt 32 e) ∧
  (∀ (s : State) (S : Int), -2 ^ 31 ≤ S → S < 2 ^ 31 → ¬ inD S → s.opa = BitVec.ofInt 32 S →
    ∃ t, exec .valEnc32 s = .next t ∧ (t.scode = .errRange ∨ ∀ u : State, u.opa = pairBytes t →
      ∃ v, exec .valDec32 u = .next v ∧ (v.scode = .sentinel ∨ v.res0 ≠ BitVec.ofInt 32 S))) ∧
  (∀ s t u : State, exec .valDec32 s = .next t → t.scode = .ok → u.opa = t.res0 →
    BitVec.ofNat 8 u.opb.toNat = BitVec.ofNat 8 t.rexp.toNat →
    ∃ v, exec .valEnc32 u = .next v ∧ v.scode = .ok ∧ pairBytes v = s.opa)

/-! ### Header -/

/-- R150, R152: HDR.ENC, in integer arithmetic on the fields of OPA. -/
def Obligations.HdrEncPacksTheHeaderTriplet : Prop :=
  ∀ s : State,
    let t0 := 255 - bitsAt s.opa 0 8
    let t1 := bitsAt s.opa 15 1 + bitsAt s.opa 13 2 * 2 + bitsAt s.opa 12 1 * 8 + bitsAt s.opa 8 4 * 16
    exec .hdrEnc s = .next { s with
      scode := .ok, boolFlag := false, res1 := 0#32, rexp := 0#32, ecode := 0#32
      res0 := BitVec.ofNat 32 (t0 * 2 ^ 16 + t1 * 2 ^ 8 + (crc8 (BitVec.ofNat 8 t0) (BitVec.ofNat 8 t1)).toNat) }

/-- R153, R156: HDR.DEC reports ERR_CRC on a bad CRC and otherwise unpacks the fields; ERR_HEADER never occurs. -/
def Obligations.HdrDecChecksTheCrcAndUnpacks : Prop :=
  ∀ s : State,
    let t0 := bitsAt s.opa 16 8
    let t1 := bitsAt s.opa 8 8
    let t2 := bitsAt s.opa 0 8
    let c := (crc8 (BitVec.ofNat 8 t0) (BitVec.ofNat 8 t1)).toNat
    exec .hdrDec s = .next (
      if c ≠ t2 then
        { s with scode := .errCrc, boolFlag := false, res0 := BitVec.ofNat 32 c, res1 := BitVec.ofNat 32 t2
                 rexp := 0#32, ecode := 0#32 }
      else
        { s with
          scode := .ok, boolFlag := false, res1 := 0#32, rexp := 0#32, ecode := 0#32
          res0 := BitVec.ofNat 32 ((255 - t0) + t1 / 16 * 2 ^ 8 + t1 / 8 % 2 * 2 ^ 12 + t1 / 2 % 4 * 2 ^ 13 +
            t1 % 2 * 2 ^ 15) })

/-- HDR.DEC of what HDR.ENC gives is OPA[15:0] again, for every operand (R152, R153). -/
def Obligations.HeaderRoundTripsForEveryOperand : Prop :=
  ∀ s u : State, ∃ t, exec .hdrEnc s = .next t ∧
    (u.opa = t.res0 → ∃ v, exec .hdrDec u = .next v ∧ v.scode = .ok ∧ v.res0 = BitVec.ofNat 32 (bitsAt s.opa 0 16))

/-- R155: S.ENCODE makes of the raw triplet [address, t1, x] the triplet that HDR.ENC gives for the same fields. -/
def Obligations.EncodedRawHeaderIsTheHdrEncTriplet : Prop :=
  ∀ (s u h : State) (addr t1 : Byte), s.astate = .complete → 3 ≤ s.len.toNat → s.len.toNat ≤ Config.chip.cap →
    memRead Config.chip s 0 = some addr → memRead Config.chip s 1 = some t1 →
    bitsAt u.opa 0 8 = addr.toNat →
    t1.toNat = bitsAt u.opa 15 1 + bitsAt u.opa 13 2 * 2 + bitsAt u.opa 12 1 * 8 + bitsAt u.opa 8 4 * 16 →
    exec .hdrEnc u = .next h →
    ∃ t, exec .sEncode s = .next t ∧
      memRead Config.chip t 0 = some (BitVec.ofNat 8 (bitsAt h.res0 16 8)) ∧
      memRead Config.chip t 1 = some (BitVec.ofNat 8 (bitsAt h.res0 8 8)) ∧
      memRead Config.chip t 2 = some (BitVec.ofNat 8 (bitsAt h.res0 0 8))

/-! ### Stream -/

/-- R172: S.INIT, in every state. BUF and STAGE keep their contents. No other command leaves Invalid. -/
def Obligations.InitStartsAFreshStream : Prop :=
  (∀ s : State, exec .sInit s = .next { s with
    lcode := BitVec.ofNat 2 (bitsAt s.opa 0 2), len := 0#16, slen := 0#16, astate := .empty
    scode := .ok, boolFlag := false, res0 := 0#32, res1 := 0#32, rexp := 0#32, ecode := 0#32 }) ∧
  (∀ (i : Instr) (s t : State), s.astate = .invalid → exec i s = .next t → t.astate ≠ .invalid → i = .sInit)

/-- R173: S.PUSH stores OPA[7:0] at STAGE[SLEN] and nowhere else, or reports ERR_CAPACITY when STAGE is full. -/
def Obligations.PushStagesOneByte : Prop :=
  ∀ s : State,
    (s.slen.toNat < Config.chip.cap → ∃ t, exec .sPush s = .next t ∧
      t = { s with stage := t.stage, slen := BitVec.ofNat 16 (s.slen.toNat + 1)
                   scode := .ok, boolFlag := false, res0 := 0#32, res1 := 0#32, rexp := 0#32, ecode := 0#32 } ∧
      t.slen.toNat = s.slen.toNat + 1 ∧
      stageRead Config.chip t s.slen.toNat = some (BitVec.ofNat 8 (bitsAt s.opa 0 8)) ∧
      ∀ a, a ≠ s.slen.toNat → stageRead Config.chip t a = stageRead Config.chip s a) ∧
    (s.slen.toNat = Config.chip.cap → exec .sPush s = .next { s with
      scode := .errCapacity, boolFlag := false, res0 := 0#32, res1 := 0#32, rexp := 0#32, ecode := 0#32 })

/-- R174, R215: the errors of S.APPEND in their order. Each empties STAGE, commits nothing, and all but ERR_STATE make
the stream Invalid; ERR_CRC names the first failing triplet. The premise on SLEN is part of R46. -/
def Obligations.AppendReportsErrorsInOrder : Prop :=
  ∀ s : State, s.slen.toNat ≤ Config.chip.cap →
    let k := s.slen.toNat
    let n := (s.len.toNat + k) / 3
    let error (c : StatusCode) (a : AState) : State := { s with
      astate := a, slen := 0#16, scode := c, boolFlag := false, res0 := 0#32, res1 := 0#32, rexp := 0#32
      ecode := 0#32 }
    (s.astate = .complete ∨ s.astate = .invalid → exec .sAppend s = .next (error .errState s.astate)) ∧
    (s.astate = .empty ∨ s.astate = .partly →
      (k = 0 ∨ k % 3 ≠ 0 → exec .sAppend s = .next (error .errAlign .invalid)) ∧
      (0 < k → k % 3 = 0 →
        (∀ (j : Nat) (t0 t1 t2 : Byte), j < k / 3 → stageRead Config.chip s (3 * j) = some t0 →
          stageRead Config.chip s (3 * j + 1) = some t1 → stageRead Config.chip s (3 * j + 2) = some t2 →
          crc8 t0 t1 ≠ t2 → (∀ j' < j, StagedTripletOk Config.chip s j') →
          exec .sAppend s = .next { error .errCrc .invalid with
            res0 := BitVec.ofNat 32 (crc8 t0 t1).toNat, res1 := BitVec.ofNat 32 t2.toNat
            ecode := BitVec.ofNat 32 j }) ∧
        ((∀ j < k / 3, StagedTripletOk Config.chip s j) →
          (∀ e, expectedTriplets (clsOf Config.chip s) = some e → e < n →
            exec .sAppend s = .next (error .errLength .invalid)) ∧
          ((∀ e, expectedTriplets (clsOf Config.chip s) = some e → n ≤ e) → Config.chip.cap < s.len.toNat + k →
            exec .sAppend s = .next (error .errCapacity .invalid)))))

/-- R174: an S.APPEND that passes its checks stores the staged bytes at BUF[LEN] upward and nowhere else. -/
def Obligations.AppendCommitsTheStagedTriplets : Prop :=
  ∀ s : State,
    let k := s.slen.toNat
    let n := (s.len.toNat + k) / 3
    s.astate = .empty ∨ s.astate = .partly → 0 < k → k % 3 = 0 →
    (∀ j < k / 3, StagedTripletOk Config.chip s j) →
    (∀ e, expectedTriplets (clsOf Config.chip s) = some e → n ≤ e) → s.len.toNat + k ≤ Config.chip.cap →
    ∃ t, exec .sAppend s = .next t ∧
      t = { s with
        buf := t.buf, len := BitVec.ofNat 16 (s.len.toNat + k), slen := 0#16
        astate := if expectedTriplets (clsOf Config.chip s) = some n then .complete else .partly
        scode := .ok, boolFlag := false, res0 := 0#32, res1 := 0#32, rexp := 0#32, ecode := 0#32 } ∧
      t.len.toNat = s.len.toNat + k ∧
      (∀ i < k, memRead Config.chip t (s.len.toNat + i) = stageRead Config.chip s i) ∧
      (∀ a, a < s.len.toNat ∨ s.len.toNat + k ≤ a → memRead Config.chip t a = memRead Config.chip s a)

/-- R178: S.SETDATA: its errors in their order, and the overwrite from index 0, which stores to no other byte. The
premise on SLEN is part of R46. -/
def Obligations.SetdataOverwritesAFreshStream : Prop :=
  ∀ s : State, s.slen.toNat ≤ Config.chip.cap →
    let k := s.slen.toNat
    let error (c : StatusCode) (a : AState) : State := { s with
      astate := a, slen := 0#16, scode := c, boolFlag := false, res0 := 0#32, res1 := 0#32, rexp := 0#32
      ecode := 0#32 }
    (s.astate ≠ .empty → exec .sSetdata s = .next (error .errState s.astate)) ∧
    (s.astate = .empty → ∀ e, expectedTriplets (clsOf Config.chip s) = some e → k ≠ 3 * e →
      exec .sSetdata s = .next (error .errLength .invalid)) ∧
    (s.astate = .empty → expectedTriplets (clsOf Config.chip s) = none → k = 0 ∨ k % 3 ≠ 0 →
      exec .sSetdata s = .next (error .errAlign .invalid)) ∧
    (s.astate = .empty →
      (expectedTriplets (clsOf Config.chip s) = some (k / 3) ∨ expectedTriplets (clsOf Config.chip s) = none) →
      0 < k → k % 3 = 0 →
      ∃ t, exec .sSetdata s = .next t ∧
        t = { s with buf := t.buf, len := s.slen, slen := 0#16, astate := .complete
                     scode := .ok, boolFlag := false, res0 := 0#32, res1 := 0#32, rexp := 0#32, ecode := 0#32 } ∧
        (∀ i < k, memRead Config.chip t i = stageRead Config.chip s i) ∧
        (∀ a, k ≤ a → memRead Config.chip t a = memRead Config.chip s a))

/-- R182, R183: S.ENCODE needs Complete; it complements the first byte of every triplet, keeps the second, and puts the
CRC of the two in the third; no byte outside those triplets changes. The premise on LEN is part of R46. -/
def Obligations.EncodePutsEveryTripletInWireForm : Prop :=
  ∀ s : State,
    (s.astate ≠ .complete → exec .sEncode s = .next { s with
      scode := .errState, boolFlag := false, res0 := 0#32, res1 := 0#32, rexp := 0#32, ecode := 0#32 }) ∧
    (s.astate = .complete → s.len.toNat ≤ Config.chip.cap → ∃ t, exec .sEncode s = .next t ∧
      t = { s with buf := t.buf, scode := .ok, boolFlag := false, res0 := 0#32, res1 := 0#32, rexp := 0#32
                   ecode := 0#32 } ∧
      (∀ j < s.len.toNat / 3, ∃ r0 r1, memRead Config.chip s (3 * j) = some r0 ∧
        memRead Config.chip s (3 * j + 1) = some r1 ∧
        memRead Config.chip t (3 * j) = some (BitVec.ofNat 8 (255 - r0.toNat)) ∧
        memRead Config.chip t (3 * j + 1) = some r1 ∧
        memRead Config.chip t (3 * j + 2) = some (crc8 (BitVec.ofNat 8 (255 - r0.toNat)) r1)) ∧
      (∀ a, 3 * (s.len.toNat / 3) ≤ a → memRead Config.chip t a = memRead Config.chip s a))

/-- R246: a second S.ENCODE puts the raw first byte of every triplet back and the CRC of the raw pair in its third. -/
def Obligations.SecondEncodeRestoresFirstBytes : Prop :=
  ∀ s : State, s.astate = .complete → s.len.toNat ≤ Config.chip.cap →
    ∃ t u, exec .sEncode s = .next t ∧ exec .sEncode t = .next u ∧
      ∀ j < s.len.toNat / 3, ∃ r0 r1, memRead Config.chip s (3 * j) = some r0 ∧
        memRead Config.chip s (3 * j + 1) = some r1 ∧ memRead Config.chip u (3 * j) = some r0 ∧
        memRead Config.chip u (3 * j + 1) = some r1 ∧ memRead Config.chip u (3 * j + 2) = some (crc8 r0 r1)

/-- R186, R187: S.VERIFY, by state and length; it completes in every state. -/
def Obligations.VerifyDecidesTheLength : Prop :=
  ∀ s : State,
    let matched := match expectedTriplets (clsOf Config.chip s) with
      | some e => s.len.toNat = 3 * e
      | none => 3 ≤ s.len.toNat
    let leave (c : StatusCode) (b : Bool) (a : AState) : State := { s with
      astate := a, scode := c, boolFlag := b, res0 := 0#32, res1 := 0#32, rexp := 0#32, ecode := 0#32 }
    (s.astate = .invalid → exec .sVerify s = .next (leave .errState false .invalid)) ∧
    (s.astate ≠ .invalid → matched → exec .sVerify s =
      .next (leave .ok true (if s.astate = .partly then .complete else s.astate))) ∧
    (s.astate ≠ .invalid → ¬ matched → exec .sVerify s = .next (leave .errLength false .invalid))

/-- R188: S.READ gives the byte of BUF at OPA[15:0], or ERR_RANGE at LEN and above. The premise on LEN is part of
R46. -/
def Obligations.ReadGivesOneStreamByte : Prop :=
  ∀ s : State,
    let i := bitsAt s.opa 0 16
    (s.len.toNat ≤ i → exec .sRead s = .next { s with
      scode := .errRange, boolFlag := false, res0 := 0#32, res1 := 0#32, rexp := 0#32, ecode := 0#32 }) ∧
    (i < s.len.toNat → s.len.toNat ≤ Config.chip.cap → ∃ b, memRead Config.chip s i = some b ∧
      exec .sRead s = .next { s with
        scode := .ok, boolFlag := false, res0 := BitVec.ofNat 32 b.toNat, res1 := 0#32, rexp := 0#32, ecode := 0#32 })

/-- R190: S.READT gives triplet OPA[15:0] of BUF in layout T24, or ERR_RANGE where it is not wholly in the stream. The
premise on LEN is part of R46. -/
def Obligations.ReadtGivesOneStreamTriplet : Prop :=
  ∀ s : State,
    let j := bitsAt s.opa 0 16
    (s.len.toNat < 3 * j + 3 → exec .sReadt s = .next { s with
      scode := .errRange, boolFlag := false, res0 := 0#32, res1 := 0#32, rexp := 0#32, ecode := 0#32 }) ∧
    (3 * j + 3 ≤ s.len.toNat → s.len.toNat ≤ Config.chip.cap → ∃ t0 t1 t2,
      memRead Config.chip s (3 * j) = some t0 ∧ memRead Config.chip s (3 * j + 1) = some t1 ∧
      memRead Config.chip s (3 * j + 2) = some t2 ∧
      exec .sReadt s = .next { s with
        scode := .ok, boolFlag := false, res1 := 0#32, rexp := 0#32, ecode := 0#32
        res0 := BitVec.ofNat 32 (t0.toNat * 2 ^ 16 + t1.toNat * 2 ^ 8 + t2.toNat) })

/-- R248: S.APPEND and S.SETDATA empty STAGE on every outcome. -/
def Obligations.StagingIsConsumedOnEveryOutcome : Prop :=
  ∀ (i : Instr) (s t : State), i = .sAppend ∨ i = .sSetdata → exec i s = .next t → t.slen = 0#16

/-- R192: the transition table of ASTATE, for all commands and every safe state, each row with its condition: S.APPEND
in Empty or Partial and S.SETDATA in Empty end in Invalid only where the check named by SCODE fails, and go on only where
all checks pass. -/
def Obligations.AssemblerFollowsTheTransitionTable : Prop :=
  ∀ (i : Instr) (s t : State), SafeState Config.chip s → exec i s = .next t →
    let E := expectedTriplets (clsOf Config.chip s)
    let k := s.slen.toNat
    let n := (s.len.toNat + k) / 3
    let crcsGood := ∀ j < k / 3, StagedTripletOk Config.chip s j
    match i with
    | .sInit => t.astate = .empty ∧ t.scode = .ok
    | .sAppend =>
      if s.astate = .complete ∨ s.astate = .invalid then t.astate = s.astate ∧ t.scode = .errState
      else
        (t.scode = .ok ∧ 0 < k ∧ k % 3 = 0 ∧ crcsGood ∧ s.len.toNat + k ≤ Config.chip.cap ∧
          ((∃ e, E = some e ∧ n < e ∧ t.astate = .partly) ∨ (E = some n ∧ t.astate = .complete) ∨
            (E = none ∧ t.astate = .partly))) ∨
        (t.astate = .invalid ∧
          ((t.scode = .errAlign ∧ (k = 0 ∨ k % 3 ≠ 0)) ∨
            (t.scode = .errCrc ∧ 0 < k ∧ k % 3 = 0 ∧ ¬ crcsGood) ∨
            (t.scode = .errLength ∧ 0 < k ∧ k % 3 = 0 ∧ crcsGood ∧ ∃ e, E = some e ∧ e < n) ∨
            (t.scode = .errCapacity ∧ 0 < k ∧ k % 3 = 0 ∧ crcsGood ∧ (∀ e, E = some e → n ≤ e) ∧
              Config.chip.cap < s.len.toNat + k)))
    | .sSetdata =>
      if s.astate = .empty then
        (t.astate = .complete ∧ t.scode = .ok ∧ ((∃ e, E = some e ∧ k = 3 * e) ∨ (E = none ∧ 0 < k ∧ k % 3 = 0))) ∨
        (t.astate = .invalid ∧
          ((t.scode = .errLength ∧ ∃ e, E = some e ∧ k ≠ 3 * e) ∨
            (t.scode = .errAlign ∧ E = none ∧ (k = 0 ∨ k % 3 ≠ 0))))
      else t.astate = s.astate ∧ t.scode = .errState
    | .sVerify =>
      match s.astate with
      | .invalid => t.astate = .invalid ∧ t.scode = .errState
      | .complete => t.astate = .complete ∧ t.scode = .ok
      | .partly =>
        if E = none then t.astate = .complete ∧ t.scode = .ok else t.astate = .invalid ∧ t.scode = .errLength
      | .empty => t.astate = .invalid ∧ t.scode = .errLength
    | _ => t.astate = s.astate

/-- R40: "Only S.INIT or reset leaves Invalid", over whole steps. -/
def Obligations.OnlyInitOrResetLeavesInvalid : Prop :=
  ∀ s t : State, s.astate = .invalid → step s = .next t → t.astate ≠ .invalid →
    ∃ rest, s.inputs = .assertReset :: rest ∨ (s.resetAsserted = false ∧ s.inputs = .write 0#4 0x00000030#32 :: rest)

/-! ### Whole machine -/

/-- R46 with R42 to R45 and R49: the reset state of any host is safe. -/
def Obligations.ResetIsSafe : Prop := ∀ inputs : List Input, SafeState Config.chip (hostStart inputs)

/-- R46 with R42 to R45 and R49: every step, whatever its access, keeps a safe state safe; so BUF and STAGE keep their
canonical form and stay inside CAP. -/
def Obligations.EveryStepKeepsSafe : Prop :=
  ∀ s t : State, SafeState Config.chip s → step s = .next t → SafeState Config.chip t

/-- R213: from a safe state every step completes, and every command does. -/
def Obligations.NoStepFromASafeStateStops : Prop :=
  ∀ s : State, SafeState Config.chip s →
    (∃ t, step s = .next t) ∧ ∀ i : Instr, ∃ t, exec i s = .next t

/-- R46: "These invariants hold in every state the block reaches from reset", for every sequence of host accesses and
reset edges; and every such run goes on (R213). The list of accesses (log 1) and the canonical form that SafeState asks
of the buffers (log 8) are the model's own. -/
def Obligations.EveryRunFromResetStaysSafe : Prop :=
  ∀ (inputs : List Input) (k : Nat), ∃ t, core.run k (hostStart inputs) = .next t ∧ SafeState Config.chip t

/-- R44, R45, R49, R254: no step lets anyone learn a byte of BUF at LEN or above, or of STAGE at SLEN or above. -/
def Obligations.StepsHideTheUnobservableBytes : Prop :=
  ∀ s u t : State, SafeState Config.chip s → SafeState Config.chip u → SameVisible Config.chip s u → step s = .next t →
    ∃ v, step u = .next v ∧ SameVisible Config.chip t v
end

