-- ==== Sys2Proof/Laws/Config.lean ====
section
/-! SUPPORT. What R7 (00_scope.md) lets one know of the opaque parameters. -/

namespace Sys2Proof.Laws

/-- R7: `3 ≤ CAP_TRIPLETS ≤ 21845`. -/
theorem chip_valid : Config.chip.valid = true := by
  have := Config.spareTriplets.isLt
  simp [Params.valid, Config.chip]
  omega

/-- CAP is a whole number of triplets, at least 9 and within LEN's 16 bits. -/
theorem valid_cap {p : Params} (h : p.valid = true) : 9 ≤ p.cap ∧ p.cap ≤ 65535 ∧ p.cap % 3 = 0 := by
  simp only [Params.valid, Bool.and_eq_true, decide_eq_true_eq] at h
  simp only [Params.cap]
  omega

/-- CAP of the chip. -/
theorem chip_cap : 9 ≤ Config.chip.cap ∧ Config.chip.cap ≤ 65535 ∧ Config.chip.cap % 3 = 0 := valid_cap chip_valid

/-- R7: LENCODE(0) = Byte3. -/
@[simp] theorem lencode_zero (p : Params) : p.lencode 0#2 = .byte3 := rfl

/-- R7: LENCODE is one-to-one, whichever it is. -/
theorem lencode_injective (p : Params) : Function.Injective p.lencode := by
  obtain ⟨n, o⟩ := p
  have key : ∀ o : LengthCodeOrder, ∀ a b : BitVec 2,
      Params.lencode ⟨0, o⟩ a = Params.lencode ⟨0, o⟩ b → a = b := by
    intro o; cases o <;> decide
  exact fun a b h => key o a b h

/-- R7: every class has a code. -/
theorem lencode_surjective (p : Params) : Function.Surjective p.lencode := by
  obtain ⟨n, o⟩ := p
  have key : ∀ o : LengthCodeOrder, ∀ c : LengthClass, ∃ a : BitVec 2, Params.lencode ⟨0, o⟩ a = c := by
    intro o c; cases o <;> cases c <;> decide
  exact fun c => key o c

end Sys2Proof.Laws
end

