-- ==== Sys2Proof/Laws/Memory.lean ====
section
/-! SUPPORT. Reading a written byte, and the canonical form (log 8). -/

namespace Sys2Proof.Laws

open Sys2Proof.Machine

/-- The one spec of a byte write: it is read back, and every other byte stays. -/
theorem byteAt_put (m : Memory) (a : Nat) (v : Byte) (x : Nat) :
    Memory.byteAt (Memory.put m a v) x = if x = a then some v else Memory.byteAt m x := by
  induction m with
  | nil => simp [Memory.put, Memory.byteAt, eq_comm]
  | cons c m ih =>
    obtain ⟨b, w⟩ := c
    simp only [Memory.put]
    split
    · simp [Memory.byteAt, eq_comm]
    · split
      · subst_vars
        simp only [Memory.byteAt]
        grind
      · simp only [Memory.byteAt, ih]
        grind

/-- The indices listed after a write are those listed before and the one written. -/
theorem mem_put (m : Memory) (a : Nat) (v : Byte) (c : Host.Cell) (h : c ∈ Memory.put m a v) :
    c.1 = a ∨ c ∈ m := by
  induction m with
  | nil => simp_all [Memory.put]
  | cons d m ih =>
    obtain ⟨b, w⟩ := d
    simp only [Memory.put] at h
    split at h
    · grind
    · split at h <;> grind

/-- A write keeps the canonical form. -/
theorem wf_put (m : Memory) (a : Nat) (v : Byte) (h : Memory.wf m) : Memory.wf (Memory.put m a v) := by
  induction m with
  | nil => simp [Memory.put, Memory.wf]
  | cons d m ih =>
    obtain ⟨b, w⟩ := d
    have hm : Memory.wf m := (List.pairwise_cons.1 h).2
    have hb : ∀ c ∈ m, b < c.1 := (List.pairwise_cons.1 h).1
    simp only [Memory.put]
    split
    · refine List.pairwise_cons.2 ⟨?_, h⟩
      intro c hc
      rcases List.mem_cons.1 hc with rfl | hc
      · assumption
      · have := hb c hc; omega
    · split
      · subst_vars; exact List.pairwise_cons.2 ⟨hb, hm⟩
      · refine List.pairwise_cons.2 ⟨?_, ih hm⟩
        intro c hc
        rcases mem_put m a v c hc with h | h
        · show b < c.1; omega
        · exact hb c h

/-- In canonical form, two memories that read alike everywhere are equal data. -/
theorem ext_of_wf (m n : Memory) (hm : Memory.wf m) (hn : Memory.wf n)
    (h : ∀ a, Memory.byteAt m a = Memory.byteAt n a) : m = n := by
  have below : ∀ (l : Memory) (b : Nat), (∀ c ∈ l, b < c.1) → ∀ a ≤ b, Memory.byteAt l a = none := by
    intro l b hl a ha
    induction l with
    | nil => rfl
    | cons c l ih =>
      obtain ⟨x, w⟩ := c
      have : b < x := hl _ List.mem_cons_self
      have hne : x ≠ a := by omega
      simp only [Memory.byteAt, hne, if_false]
      exact ih fun c hc => hl c (List.mem_cons_of_mem _ hc)
  induction m generalizing n with
  | nil =>
    cases n with
    | nil => rfl
    | cons d n => have := h d.1; simp [Memory.byteAt] at this
  | cons c m ih =>
    obtain ⟨b, v⟩ := c
    have hb := (List.pairwise_cons.1 hm).1
    cases n with
    | nil => have := h b; simp [Memory.byteAt] at this
    | cons d n =>
      obtain ⟨x, w⟩ := d
      have hx := (List.pairwise_cons.1 hn).1
      have h1 := h b
      have h2 := h x
      simp only [Memory.byteAt, if_true] at h1 h2
      have hbx : b = x := by
        rcases Nat.lt_trichotomy b x with hlt | heq | hgt
        · rw [below n x hx b (by omega), if_neg (by omega)] at h1; exact absurd h1 (by simp)
        · exact heq
        · rw [below m b hb x (by omega), if_neg (by omega)] at h2; exact absurd h2.symm (by simp)
      subst hbx
      simp only [if_true, Option.some.injEq] at h1
      subst h1
      congr 1
      refine ih n (List.pairwise_cons.1 hm).2 (List.pairwise_cons.1 hn).2 fun a => ?_
      by_cases ha : a ≤ b
      · rw [below m b hb a ha, below n b hx a ha]
      · have := h a
        have hne : b ≠ a := by omega
        simpa only [Memory.byteAt, hne, if_false] using this

end Sys2Proof.Laws
end

