-- ==== Sys2Proof/Laws/State.lean ====
section
/-! SUPPORT. What each named update of State leaves in each field. -/

namespace Sys2Proof.Machine.State

@[simp] theorem record_opa (s : State) (c : StatusCode) (r : Results) : (s.record c r).opa = s.opa := rfl
@[simp] theorem record_opb (s : State) (c : StatusCode) (r : Results) : (s.record c r).opb = s.opb := rfl
@[simp] theorem record_res0 (s : State) (c : StatusCode) (r : Results) : (s.record c r).res0 = r.res0 := rfl
@[simp] theorem record_res1 (s : State) (c : StatusCode) (r : Results) : (s.record c r).res1 = r.res1 := rfl
@[simp] theorem record_rexp (s : State) (c : StatusCode) (r : Results) : (s.record c r).rexp = r.rexp := rfl
@[simp] theorem record_ecode (s : State) (c : StatusCode) (r : Results) : (s.record c r).ecode = r.ecode := rfl
@[simp] theorem record_scode (s : State) (c : StatusCode) (r : Results) : (s.record c r).scode = c := rfl
@[simp] theorem record_boolFlag (s : State) (c : StatusCode) (r : Results) : (s.record c r).boolFlag = r.boolFlag := rfl
@[simp] theorem record_astate (s : State) (c : StatusCode) (r : Results) : (s.record c r).astate = s.astate := rfl
@[simp] theorem record_lcode (s : State) (c : StatusCode) (r : Results) : (s.record c r).lcode = s.lcode := rfl
@[simp] theorem record_len (s : State) (c : StatusCode) (r : Results) : (s.record c r).len = s.len := rfl
@[simp] theorem record_slen (s : State) (c : StatusCode) (r : Results) : (s.record c r).slen = s.slen := rfl
@[simp] theorem record_buf (s : State) (c : StatusCode) (r : Results) : (s.record c r).buf = s.buf := rfl
@[simp] theorem record_stage (s : State) (c : StatusCode) (r : Results) : (s.record c r).stage = s.stage := rfl
@[simp] theorem record_resetAsserted (s : State) (c : StatusCode) (r : Results) : (s.record c r).resetAsserted = s.resetAsserted := rfl
@[simp] theorem record_inputs (s : State) (c : StatusCode) (r : Results) : (s.record c r).inputs = s.inputs := rfl
@[simp] theorem record_reads (s : State) (c : StatusCode) (r : Results) : (s.record c r).reads = s.reads := rfl

@[simp] theorem setStream_opa (s : State) (a : AState) (l k : Half) : (s.setStream a l k).opa = s.opa := rfl
@[simp] theorem setStream_opb (s : State) (a : AState) (l k : Half) : (s.setStream a l k).opb = s.opb := rfl
@[simp] theorem setStream_res0 (s : State) (a : AState) (l k : Half) : (s.setStream a l k).res0 = s.res0 := rfl
@[simp] theorem setStream_res1 (s : State) (a : AState) (l k : Half) : (s.setStream a l k).res1 = s.res1 := rfl
@[simp] theorem setStream_rexp (s : State) (a : AState) (l k : Half) : (s.setStream a l k).rexp = s.rexp := rfl
@[simp] theorem setStream_ecode (s : State) (a : AState) (l k : Half) : (s.setStream a l k).ecode = s.ecode := rfl
@[simp] theorem setStream_scode (s : State) (a : AState) (l k : Half) : (s.setStream a l k).scode = s.scode := rfl
@[simp] theorem setStream_boolFlag (s : State) (a : AState) (l k : Half) : (s.setStream a l k).boolFlag = s.boolFlag := rfl
@[simp] theorem setStream_astate (s : State) (a : AState) (l k : Half) : (s.setStream a l k).astate = a := rfl
@[simp] theorem setStream_lcode (s : State) (a : AState) (l k : Half) : (s.setStream a l k).lcode = s.lcode := rfl
@[simp] theorem setStream_len (s : State) (a : AState) (l k : Half) : (s.setStream a l k).len = l := rfl
@[simp] theorem setStream_slen (s : State) (a : AState) (l k : Half) : (s.setStream a l k).slen = k := rfl
@[simp] theorem setStream_buf (s : State) (a : AState) (l k : Half) : (s.setStream a l k).buf = s.buf := rfl
@[simp] theorem setStream_stage (s : State) (a : AState) (l k : Half) : (s.setStream a l k).stage = s.stage := rfl
@[simp] theorem setStream_resetAsserted (s : State) (a : AState) (l k : Half) : (s.setStream a l k).resetAsserted = s.resetAsserted := rfl
@[simp] theorem setStream_inputs (s : State) (a : AState) (l k : Half) : (s.setStream a l k).inputs = s.inputs := rfl
@[simp] theorem setStream_reads (s : State) (a : AState) (l k : Half) : (s.setStream a l k).reads = s.reads := rfl

@[simp] theorem setBuf_opa (s : State) (m : Memory) : (s.setBuf m).opa = s.opa := rfl
@[simp] theorem setBuf_opb (s : State) (m : Memory) : (s.setBuf m).opb = s.opb := rfl
@[simp] theorem setBuf_res0 (s : State) (m : Memory) : (s.setBuf m).res0 = s.res0 := rfl
@[simp] theorem setBuf_res1 (s : State) (m : Memory) : (s.setBuf m).res1 = s.res1 := rfl
@[simp] theorem setBuf_rexp (s : State) (m : Memory) : (s.setBuf m).rexp = s.rexp := rfl
@[simp] theorem setBuf_ecode (s : State) (m : Memory) : (s.setBuf m).ecode = s.ecode := rfl
@[simp] theorem setBuf_scode (s : State) (m : Memory) : (s.setBuf m).scode = s.scode := rfl
@[simp] theorem setBuf_boolFlag (s : State) (m : Memory) : (s.setBuf m).boolFlag = s.boolFlag := rfl
@[simp] theorem setBuf_astate (s : State) (m : Memory) : (s.setBuf m).astate = s.astate := rfl
@[simp] theorem setBuf_lcode (s : State) (m : Memory) : (s.setBuf m).lcode = s.lcode := rfl
@[simp] theorem setBuf_len (s : State) (m : Memory) : (s.setBuf m).len = s.len := rfl
@[simp] theorem setBuf_slen (s : State) (m : Memory) : (s.setBuf m).slen = s.slen := rfl
@[simp] theorem setBuf_buf (s : State) (m : Memory) : (s.setBuf m).buf = m := rfl
@[simp] theorem setBuf_stage (s : State) (m : Memory) : (s.setBuf m).stage = s.stage := rfl
@[simp] theorem setBuf_resetAsserted (s : State) (m : Memory) : (s.setBuf m).resetAsserted = s.resetAsserted := rfl
@[simp] theorem setBuf_inputs (s : State) (m : Memory) : (s.setBuf m).inputs = s.inputs := rfl
@[simp] theorem setBuf_reads (s : State) (m : Memory) : (s.setBuf m).reads = s.reads := rfl

@[simp] theorem setStage_opa (s : State) (m : Memory) : (s.setStage m).opa = s.opa := rfl
@[simp] theorem setStage_opb (s : State) (m : Memory) : (s.setStage m).opb = s.opb := rfl
@[simp] theorem setStage_res0 (s : State) (m : Memory) : (s.setStage m).res0 = s.res0 := rfl
@[simp] theorem setStage_res1 (s : State) (m : Memory) : (s.setStage m).res1 = s.res1 := rfl
@[simp] theorem setStage_rexp (s : State) (m : Memory) : (s.setStage m).rexp = s.rexp := rfl
@[simp] theorem setStage_ecode (s : State) (m : Memory) : (s.setStage m).ecode = s.ecode := rfl
@[simp] theorem setStage_scode (s : State) (m : Memory) : (s.setStage m).scode = s.scode := rfl
@[simp] theorem setStage_boolFlag (s : State) (m : Memory) : (s.setStage m).boolFlag = s.boolFlag := rfl
@[simp] theorem setStage_astate (s : State) (m : Memory) : (s.setStage m).astate = s.astate := rfl
@[simp] theorem setStage_lcode (s : State) (m : Memory) : (s.setStage m).lcode = s.lcode := rfl
@[simp] theorem setStage_len (s : State) (m : Memory) : (s.setStage m).len = s.len := rfl
@[simp] theorem setStage_slen (s : State) (m : Memory) : (s.setStage m).slen = s.slen := rfl
@[simp] theorem setStage_buf (s : State) (m : Memory) : (s.setStage m).buf = s.buf := rfl
@[simp] theorem setStage_stage (s : State) (m : Memory) : (s.setStage m).stage = m := rfl
@[simp] theorem setStage_resetAsserted (s : State) (m : Memory) : (s.setStage m).resetAsserted = s.resetAsserted := rfl
@[simp] theorem setStage_inputs (s : State) (m : Memory) : (s.setStage m).inputs = s.inputs := rfl
@[simp] theorem setStage_reads (s : State) (m : Memory) : (s.setStage m).reads = s.reads := rfl

end Sys2Proof.Machine.State
end

