-- ==== Sys2Proof/Laws/Ops.lean ====
section
/-! SUPPORT. One spec for each operation on BUF and STAGE: when it answers, and what it then does. -/

namespace Sys2Proof.Laws

open Sys2Proof.Machine

variable {p : Params}

theorem raise_eq (c : StatusCode) (r : Results) (s : State) : raise c r s = s.record c r := rfl

theorem finish_eq (r : Results) (s : State) : finish r s = s.record .ok r := rfl

theorem finishSentinel_eq (n : Nat) (s : State) :
    finishSentinel n s = s.record .sentinel { ecode := BitVec.ofNat 32 n } := rfl

/-- A byte of BUF exists below CAP. -/
theorem memRead_of_lt (s : State) {i : Nat} (h : i < p.cap) :
    memRead p s i = some ((Memory.byteAt s.buf i).getD (Config.unwrittenBufByte i)) := by simp [memRead, h]

theorem memRead_isSome (s : State) (i : Nat) : (memRead p s i).isSome = decide (i < p.cap) := by
  by_cases h : i < p.cap <;> simp [memRead, h]

/-- Reading BUF looks at BUF only. -/
theorem memRead_congr {s t : State} (h : t.buf = s.buf) (i : Nat) : memRead p t i = memRead p s i := by
  simp [memRead, h]

/-- Reading STAGE looks at STAGE only. -/
theorem stageRead_congr {s t : State} (h : t.stage = s.stage) (i : Nat) : stageRead p t i = stageRead p s i := by
  simp [stageRead, h]

theorem stageRead_of_lt (s : State) {i : Nat} (h : i < p.cap) :
    stageRead p s i = some ((Memory.byteAt s.stage i).getD (Config.unwrittenStageByte i)) := by simp [stageRead, h]

/-- All that a byte write to BUF does. -/
theorem memWrite_spec {i : Nat} {v : Byte} {s t : State} (h : memWrite p i v s = some t) :
    i < p.cap ∧ t = s.setBuf (Memory.put s.buf i v) := by
  simp only [memWrite] at h
  split at h
  · exact ⟨‹_›, (Option.some.inj h).symm⟩
  · simp at h

/-- A byte write to BUF, read back. -/
theorem memRead_memWrite {i : Nat} {v : Byte} {s t : State} (h : memWrite p i v s = some t) (a : Nat) :
    memRead p t a = if a = i then some v else memRead p s a := by
  obtain ⟨hi, rfl⟩ := memWrite_spec h
  simp only [memRead, State.setBuf_buf, byteAt_put]
  by_cases ha : a = i <;> simp [ha, hi]

/-- All that a byte write to STAGE does. -/
theorem stageWrite_spec {i : Nat} {v : Byte} {s t : State} (h : stageWrite p i v s = some t) :
    i < p.cap ∧ t = s.setStage (Memory.put s.stage i v) := by
  simp only [stageWrite] at h
  split at h
  · exact ⟨‹_›, (Option.some.inj h).symm⟩
  · simp at h

/-- A byte write to STAGE, read back. -/
theorem stageRead_stageWrite {i : Nat} {v : Byte} {s t : State} (h : stageWrite p i v s = some t) (a : Nat) :
    stageRead p t a = if a = i then some v else stageRead p s a := by
  obtain ⟨hi, rfl⟩ := stageWrite_spec h
  simp only [stageRead, State.setStage_stage, byteAt_put]
  by_cases ha : a = i <;> simp [ha, hi]

/-- Reading a stretch of STAGE gives its bytes in order. -/
theorem stageReadList_spec {s : State} {i n : Nat} {bs : List Byte} (h : stageReadList p s i n = some bs) :
    bs.length = n ∧ ∀ j < n, stageRead p s (i + j) = bs[j]? := by
  induction n generalizing i bs with
  | zero => simp only [stageReadList, Option.some.injEq] at h; subst h; simp
  | succ n ih =>
    simp only [stageReadList] at h
    split at h
    · rename_i b cs hb hc
      obtain rfl := Option.some.inj h
      obtain ⟨hl, hg⟩ := ih hc
      refine ⟨by simp [hl], fun j hj => ?_⟩
      cases j with
      | zero => simpa using hb
      | succ j =>
        have := hg j (by omega)
        rw [show i + (j + 1) = i + 1 + j by omega, this]
        simp
    · simp at h

/-- Reading a stretch of STAGE below CAP answers. -/
theorem stageReadList_isSome {s : State} {i n : Nat} (h : i + n ≤ p.cap) : ∃ bs, stageReadList p s i n = some bs := by
  induction n generalizing i with
  | zero => exact ⟨[], rfl⟩
  | succ n ih =>
    obtain ⟨bs, hbs⟩ := ih (i := i + 1) (by omega)
    simp only [stageReadList, stageRead_of_lt s (show i < p.cap by omega), hbs]
    exact ⟨_, rfl⟩

/-- All that writing a stretch of BUF does: the bytes written, and nothing outside BUF. -/
theorem memWriteList_spec {i : Nat} {bs : List Byte} {s t : State} (h : memWriteList p i bs s = some t) :
    t = s.setBuf t.buf ∧
    (∀ a, Memory.byteAt t.buf a = if i ≤ a ∧ a < i + bs.length then bs[a - i]? else Memory.byteAt s.buf a) ∧
    (Memory.wf s.buf → Memory.wf t.buf) ∧
    ((∀ c ∈ s.buf, c.1 < p.cap) → ∀ c ∈ t.buf, c.1 < p.cap) := by
  induction bs generalizing i s with
  | nil =>
    simp only [memWriteList, Option.some.injEq] at h
    subst h
    exact ⟨rfl, fun a => by rw [if_neg (by simp)], id, id⟩
  | cons b bs ih =>
    simp only [memWriteList] at h
    split at h
    · rename_i s' hs'
      obtain ⟨hi, rfl⟩ := memWrite_spec hs'
      obtain ⟨h1, h2, h3, h4⟩ := ih h
      refine ⟨h1, fun a => ?_, fun hw => h3 (wf_put _ _ _ hw), fun hc => h4 fun c hc' => ?_⟩
      · rw [h2 a]
        simp only [State.setBuf_buf, byteAt_put, List.length_cons]
        by_cases ha : a = i
        · subst ha
          rw [if_neg (by omega), if_pos rfl, if_pos (by omega)]
          simp
        · by_cases hin : i + 1 ≤ a ∧ a < i + 1 + bs.length
          · rw [if_pos hin, if_pos (by omega), show a - i = (a - (i + 1)) + 1 by omega]
            simp
          · rw [if_neg hin, if_neg ha, if_neg (by omega)]
      · rcases mem_put _ _ _ _ hc' with h | h
        · omega
        · exact hc c h
    · simp at h

/-- Writing a stretch of BUF below CAP answers. -/
theorem memWriteList_isSome {i : Nat} {bs : List Byte} {s : State} (h : i + bs.length ≤ p.cap) :
    ∃ t, memWriteList p i bs s = some t := by
  induction bs generalizing i s with
  | nil => exact ⟨s, rfl⟩
  | cons b bs ih =>
    simp only [List.length_cons] at h
    have hw : memWrite p i b s = some (s.setBuf (Memory.put s.buf i b)) := by simp [memWrite, show i < p.cap by omega]
    simp only [memWriteList, hw]
    exact ih (by omega)

end Sys2Proof.Laws
end

