-- ==== Sys2Proof/Laws/Stream.lean ====
section
/-! SUPPORT. One spec for each helper of the triplet assembler (43_stream.md). -/

namespace Sys2Proof.Laws

open Sys2Proof.Machine

variable {p : Params}

@[simp] theorem clsOf_record (s : State) (c : StatusCode) (r : Results) : clsOf p (s.record c r) = clsOf p s := rfl

@[simp] theorem clsOf_setStream (s : State) (a : AState) (l k : Half) : clsOf p (s.setStream a l k) = clsOf p s := rfl

@[simp] theorem clsOf_setBuf (s : State) (m : Memory) : clsOf p (s.setBuf m) = clsOf p s := rfl

@[simp] theorem clsOf_setStage (s : State) (m : Memory) : clsOf p (s.setStage m) = clsOf p s := rfl

theorem invalidate_eq (s : State) : invalidate s = s.setStream .invalid s.len 0#16 := rfl

theorem dropStage_eq (s : State) : dropStage s = s.setStream s.astate s.len 0#16 := rfl

/-- A class fills exactly when its expected count is met (R174). -/
theorem fillsClass_iff (c : LengthClass) (n : Nat) : fillsClass c n = true ↔ expectedTriplets c = some n := by
  cases c <;> simp [fillsClass, expectedTriplets, eq_comm]

/-- A class is exceeded exactly when it has an expected count below the given one (R174). -/
theorem exceedsClass_iff (c : LengthClass) (n : Nat) :
    exceedsClass c n = true ↔ ∃ e, expectedTriplets c = some e ∧ e < n := by
  cases c <;> simp [exceedsClass, expectedTriplets]

/-- R187 for a fixed class. -/
theorem lengthOk_fixed {c : LengthClass} {e : Nat} (h : expectedTriplets c = some e) (n : Nat) :
    lengthOk c n = decide (n = 3 * e) := by simp [lengthOk, h]

/-- R187 for Variable. -/
theorem lengthOk_variable {c : LengthClass} (h : expectedTriplets c = none) (n : Nat) :
    lengthOk c n = decide (3 ≤ n) := by simp [lengthOk, h]

/-- R170: the expected counts are 1 to 3. -/
theorem expectedTriplets_range {c : LengthClass} {e : Nat} (h : expectedTriplets c = some e) : 1 ≤ e ∧ e ≤ 3 := by
  cases c <;> simp [expectedTriplets] at h <;> omega

/-- All that the transform of one triplet does (R182). -/
theorem encodeTriplet_spec {j : Nat} {s t : State} (h : encodeTriplet p j s = some t) :
    t = s.setBuf t.buf ∧
    (∃ r0 r1, memRead p s (3 * j) = some r0 ∧ memRead p s (3 * j + 1) = some r1 ∧
      memRead p t (3 * j) = some (not8 r0) ∧ memRead p t (3 * j + 1) = some r1 ∧
      memRead p t (3 * j + 2) = some (crc8 (not8 r0) r1)) ∧
    (∀ a, a < 3 * j ∨ 3 * j + 3 ≤ a → memRead p t a = memRead p s a) ∧
    (∀ a, (Memory.byteAt s.buf a).isSome → (Memory.byteAt t.buf a).isSome) ∧
    (Memory.wf s.buf → Memory.wf t.buf) ∧
    ((∀ c ∈ s.buf, c.1 < p.cap) → ∀ c ∈ t.buf, c.1 < p.cap) := by
  simp only [encodeTriplet] at h
  split at h
  · rename_i r0 r1 h0 h1
    split at h
    · rename_i s1 hs1
      have e1 := memRead_memWrite hs1
      have e2 := memRead_memWrite h
      obtain ⟨hi, rfl⟩ := memWrite_spec hs1
      obtain ⟨hj, rfl⟩ := memWrite_spec h
      refine ⟨rfl, ⟨r0, r1, h0, h1, ?_, ?_, ?_⟩, fun a ha => ?_, fun a ha => ?_, fun hw => ?_, fun hc c hm => ?_⟩
      · rw [e2, if_neg (by omega), e1, if_pos rfl]
      · rw [e2, if_neg (by omega), e1, if_neg (by omega), h1]
      · rw [e2, if_pos rfl]
      · rw [e2, if_neg (by omega), e1, if_neg (by omega)]
      · simp only [State.setBuf_buf, byteAt_put]
        split
        · rfl
        · split
          · rfl
          · exact ha
      · exact wf_put _ _ _ (wf_put _ _ _ hw)
      · rcases mem_put _ _ _ _ hm with h | h
        · omega
        · rcases mem_put _ _ _ _ h with h | h
          · omega
          · exact hc c h
    · simp at h
  · simp at h

/-- The transform of a triplet below CAP answers. -/
theorem encodeTriplet_isSome {j : Nat} {s : State} (h : 3 * j + 3 ≤ p.cap) : ∃ t, encodeTriplet p j s = some t := by
  simp only [encodeTriplet, memRead_of_lt s (show 3 * j < p.cap by omega),
    memRead_of_lt s (show 3 * j + 1 < p.cap by omega), memWrite, show 3 * j < p.cap by omega,
    show 3 * j + 2 < p.cap by omega, if_true]
  exact ⟨_, rfl⟩

/-- All that the transform of the first `n` triplets does (R183). -/
theorem encodeTriplets_spec {n : Nat} {s t : State} (h : encodeTriplets p n s = some t) :
    t = s.setBuf t.buf ∧
    (∀ j < n, ∃ r0 r1, memRead p s (3 * j) = some r0 ∧ memRead p s (3 * j + 1) = some r1 ∧
      memRead p t (3 * j) = some (not8 r0) ∧ memRead p t (3 * j + 1) = some r1 ∧
      memRead p t (3 * j + 2) = some (crc8 (not8 r0) r1)) ∧
    (∀ a, 3 * n ≤ a → memRead p t a = memRead p s a) ∧
    (∀ a, (Memory.byteAt s.buf a).isSome → (Memory.byteAt t.buf a).isSome) ∧
    (Memory.wf s.buf → Memory.wf t.buf) ∧
    ((∀ c ∈ s.buf, c.1 < p.cap) → ∀ c ∈ t.buf, c.1 < p.cap) := by
  induction n generalizing t with
  | zero =>
    simp only [encodeTriplets, Option.some.injEq] at h
    subst h
    exact ⟨rfl, fun j hj => absurd hj (by omega), fun _ _ => rfl, fun _ => id, id, id⟩
  | succ n ih =>
    simp only [encodeTriplets] at h
    split at h
    · rename_i u hu
      obtain ⟨a1, a2, a3, a4, a5, a6⟩ := ih hu
      obtain ⟨b1, ⟨r0, r1, c0, c1, d0, d1, d2⟩, b3, b4, b5, b6⟩ := encodeTriplet_spec h
      refine ⟨?_, fun j hj => ?_, fun a ha => ?_, fun a => b4 a ∘ a4 a, b5 ∘ a5, b6 ∘ a6⟩
      · rw [b1, a1]; rfl
      · by_cases hjn : j = n
        · subst hjn
          rw [a3 _ (by omega)] at c0 c1
          exact ⟨r0, r1, c0, c1, d0, d1, d2⟩
        · obtain ⟨q0, q1, e0, e1, f0, f1, f2⟩ := a2 j (by omega)
          rw [← b3 _ (by omega)] at f0 f1 f2
          exact ⟨q0, q1, e0, e1, f0, f1, f2⟩
      · rw [b3 a (by omega), a3 a (by omega)]
    · simp at h

/-- The transform of triplets below CAP answers. -/
theorem encodeTriplets_isSome {n : Nat} {s : State} (h : 3 * n ≤ p.cap) : ∃ t, encodeTriplets p n s = some t := by
  induction n with
  | zero => exact ⟨s, rfl⟩
  | succ n ih =>
    obtain ⟨u, hu⟩ := ih (by omega)
    simp only [encodeTriplets, hu]
    exact encodeTriplet_isSome (by omega)

/-- No triplet is bad exactly when each third byte is the CRC of the first two (R174). -/
theorem firstBadTriplet_none {bs : List Byte} {j n : Nat} (hl : bs.length = 3 * n) :
    firstBadTriplet j bs = none ↔
      ∀ i < n, ∀ t0 t1 t2, bs[3 * i]? = some t0 → bs[3 * i + 1]? = some t1 → bs[3 * i + 2]? = some t2 →
        crc8 t0 t1 = t2 := by
  induction n generalizing bs j with
  | zero =>
    obtain rfl := List.length_eq_zero_iff.1 (show bs.length = 0 by omega)
    simp [firstBadTriplet]
  | succ n ih =>
    match bs, hl with
    | t0 :: t1 :: t2 :: rest, hl =>
      simp only [List.length_cons] at hl
      have ihr := ih (bs := rest) (j := j + 1) (by omega)
      simp only [firstBadTriplet]
      constructor
      · intro h i hi a b c ha hb hc
        split at h
        · simp at h
        · rename_i hne
          cases i with
          | zero =>
            simp only [Nat.mul_zero, Nat.zero_add, List.getElem?_cons_zero, List.getElem?_cons_succ,
              Option.some.injEq] at ha hb hc
            subst ha hb hc
            exact not_not.1 hne
          | succ i =>
            refine ihr.1 h i (by omega) a b c ?_ ?_ ?_
            · rw [show 3 * (i + 1) = 3 * i + 1 + 1 + 1 by omega] at ha
              simpa using ha
            · rw [show 3 * (i + 1) + 1 = 3 * i + 1 + 1 + 1 + 1 by omega] at hb
              simpa using hb
            · rw [show 3 * (i + 1) + 2 = 3 * i + 2 + 1 + 1 + 1 by omega] at hc
              simpa using hc
      · intro h
        have h0 : crc8 t0 t1 = t2 := h 0 (by omega) t0 t1 t2 rfl rfl rfl
        rw [if_neg (by simp [h0])]
        refine ihr.2 fun i hi a b c ha hb hc => h (i + 1) (by omega) a b c ?_ ?_ ?_
        · rw [show 3 * (i + 1) = 3 * i + 1 + 1 + 1 by omega]; simpa using ha
        · rw [show 3 * (i + 1) + 1 = 3 * i + 1 + 1 + 1 + 1 by omega]; simpa using hb
        · rw [show 3 * (i + 1) + 2 = 3 * i + 2 + 1 + 1 + 1 by omega]; simpa using hc

/-- The bad triplet found is the first one: the triplets before it are good and it is not (R174, R215). -/
theorem firstBadTriplet_some {bs : List Byte} {j n i : Nat} {c x : Byte} (hl : bs.length = 3 * n)
    (h : firstBadTriplet j bs = some (i, c, x)) :
    ∃ k < n, i = j + k ∧ ∃ t0 t1, bs[3 * k]? = some t0 ∧ bs[3 * k + 1]? = some t1 ∧ bs[3 * k + 2]? = some x ∧
      c = crc8 t0 t1 ∧ c ≠ x ∧
      ∀ k' < k, ∀ u0 u1 u2, bs[3 * k']? = some u0 → bs[3 * k' + 1]? = some u1 → bs[3 * k' + 2]? = some u2 →
        crc8 u0 u1 = u2 := by
  induction n generalizing bs j with
  | zero =>
    obtain rfl := List.length_eq_zero_iff.1 (show bs.length = 0 by omega)
    simp [firstBadTriplet] at h
  | succ n ih =>
    match bs, hl with
    | t0 :: t1 :: t2 :: rest, hl =>
      simp only [List.length_cons] at hl
      simp only [firstBadTriplet] at h
      split at h
      · rename_i hne
        simp only [Option.some.injEq, Prod.mk.injEq] at h
        obtain ⟨rfl, rfl, rfl⟩ := h
        exact ⟨0, by omega, rfl, t0, t1, rfl, rfl, rfl, rfl, hne, fun k' hk' => absurd hk' (by omega)⟩
      · rename_i heq
        obtain ⟨k, hk, hi, u0, u1, g0, g1, g2, hc, hne, hbefore⟩ := ih (by omega) h
        refine ⟨k + 1, by omega, by omega, u0, u1, ?_, ?_, ?_, hc, hne, fun k' hk' a b d ha hb hd => ?_⟩
        · rw [show 3 * (k + 1) = 3 * k + 1 + 1 + 1 by omega]; simpa using g0
        · rw [show 3 * (k + 1) + 1 = 3 * k + 1 + 1 + 1 + 1 by omega]; simpa using g1
        · rw [show 3 * (k + 1) + 2 = 3 * k + 2 + 1 + 1 + 1 by omega]; simpa using g2
        · cases k' with
          | zero =>
            simp only [Nat.mul_zero, Nat.zero_add, List.getElem?_cons_zero, List.getElem?_cons_succ,
              Option.some.injEq] at ha hb hd
            subst ha hb hd
            exact not_not.1 heq
          | succ k' =>
            refine hbefore k' (by omega) a b d ?_ ?_ ?_
            · rw [show 3 * (k' + 1) = 3 * k' + 1 + 1 + 1 by omega] at ha; simpa using ha
            · rw [show 3 * (k' + 1) + 1 = 3 * k' + 1 + 1 + 1 + 1 by omega] at hb; simpa using hb
            · rw [show 3 * (k' + 1) + 2 = 3 * k' + 2 + 1 + 1 + 1 by omega] at hd; simpa using hd

end Sys2Proof.Laws
end

