-- ==== Sys2Proof/Laws/Commands.lean ====
section
/-! SUPPORT. What each command can do, said once: if it answers next `t`, then one of the cases here holds. -/

namespace Sys2Proof.Laws

open Sys2Proof.Machine Sys2Proof.Safety

variable {p : Params} {s t : State}

/-- The stream is past taking input (R174). -/
abbrev Terminal (s : State) : Prop := s.astate = .complete ∨ s.astate = .invalid

/-- VAL.DEC16 and VAL.DEC32 end in OK or SENTINEL (R120). -/
theorem finishDecoded_cases (d : Decoded) (s : State) :
    (∃ S e, d = .value S e ∧ finishDecoded d s = s.record .ok { res0 := toU32 S, rexp := sext8 (crop8 e) }) ∨
    (∃ c, d = .sentinel c ∧ finishDecoded d s = s.record .sentinel { ecode := BitVec.ofNat 32 c }) := by
  cases d with
  | value S e => exact .inl ⟨S, e, rfl, rfl⟩
  | sentinel c => exact .inr ⟨c, rfl, rfl⟩

/-- VAL.ENC32 ends in ERR_RANGE or in the two triplets of a packed word (R130, R131). -/
theorem execValEnc32_cases (s : State) :
    (enc32 (seS s.opa) (seE s.opb) = none ∧ execValEnc32 s = .next (s.record .errRange {})) ∨
    (∃ w, enc32 (seS s.opa) (seE s.opb) = some w ∧ execValEnc32 s = .next (s.record .ok
      { res0 := wirePair (byteOf w 3) (byteOf w 2), res1 := wirePair (byteOf w 1) (byteOf w 0)
        rexp := sext8 (crop8 (seE s.opb)) })) := by
  simp only [execValEnc32]
  split
  · exact .inl ⟨‹_›, rfl⟩
  · exact .inr ⟨_, ‹_›, rfl⟩

/-- R156: no header byte fails HDR.DEC's check of its fields. -/
theorem header_fields_valid (t1 : Byte) :
    (!prioValid ((t1 &&& 0x08#8) >>> 3) || !lenValid ((t1 &&& 0x06#8) >>> 1) || !dirValid (t1 &&& 0x01#8)) = false := by
  revert t1
  decide +kernel

/-- HDR.DEC ends in ERR_CRC or in the unpacked fields (R153, R156). -/
theorem execHdrDec_cases (s : State) :
    let t0 := byteOf s.opa 2
    let t1 := byteOf s.opa 1
    let t2 := byteOf s.opa 0
    (crc8 t0 t1 ≠ t2 ∧
      execHdrDec s = .next (s.record .errCrc { res0 := zext8 (crc8 t0 t1), res1 := zext8 t2 })) ∨
    (crc8 t0 t1 = t2 ∧ execHdrDec s = .next (s.record .ok
      { res0 := zext8 (not8 t0) ||| (zext8 ((t1 &&& 0xF0#8) >>> 4) <<< 8) ||| (zext8 ((t1 &&& 0x08#8) >>> 3) <<< 12) |||
          (zext8 ((t1 &&& 0x06#8) >>> 1) <<< 13) ||| (zext8 (t1 &&& 0x01#8) <<< 15) })) := by
  intro t0 t1 t2
  have hv := header_fields_valid t1
  simp only [execHdrDec]
  split
  · exact .inl ⟨‹_›, rfl⟩
  · rename_i hc
    split
    · rename_i hbad
      exact absurd (hbad.symm.trans hv) (by simp)
    · exact .inr ⟨not_not.1 hc, rfl⟩

/-- S.PUSH (R173). -/
theorem pushWith_cases (h : pushWith p s = .next t) :
    (s.slen.toNat = p.cap ∧ t = s.record .errCapacity {}) ∨
    (s.slen.toNat ≠ p.cap ∧ s.slen.toNat < p.cap ∧
      t = ((s.setStage (Memory.put s.stage s.slen.toNat (b8 s.opa))).setStream s.astate s.len (s.slen + 1#16)).record
        .ok {}) := by
  simp only [pushWith] at h
  split at h
  · exact .inl ⟨‹_›, (Host.Outcome.next.inj h).symm⟩
  · rename_i hne
    split at h
    · simp at h
    · rename_i s1 hs1
      obtain ⟨hlt, rfl⟩ := stageWrite_spec hs1
      exact .inr ⟨hne, hlt, (Host.Outcome.next.inj h).symm⟩

/-- S.APPEND, in the order of its checks (R174, R215). -/
theorem appendWith_cases (h : appendWith p s = .next t) :
    (Terminal s ∧ t = (dropStage s).record .errState {}) ∨
    (¬ Terminal s ∧ (s.slen.toNat = 0 ∨ s.slen.toNat % 3 ≠ 0) ∧ t = (invalidate s).record .errAlign {}) ∨
    (¬ Terminal s ∧ 0 < s.slen.toNat ∧ s.slen.toNat % 3 = 0 ∧ ∃ bs, stageReadList p s 0 s.slen.toNat = some bs ∧
      ((∃ j c x, firstBadTriplet 0 bs = some (j, c, x) ∧
          t = (invalidate s).record .errCrc { res0 := zext8 c, res1 := zext8 x, ecode := BitVec.ofNat 32 j }) ∨
       (firstBadTriplet 0 bs = none ∧
        ((exceedsClass (clsOf p s) ((s.len.toNat + s.slen.toNat) / 3) = true ∧
            t = (invalidate s).record .errLength {}) ∨
         (exceedsClass (clsOf p s) ((s.len.toNat + s.slen.toNat) / 3) = false ∧
            p.cap < s.len.toNat + s.slen.toNat ∧ t = (invalidate s).record .errCapacity {}) ∨
         (exceedsClass (clsOf p s) ((s.len.toNat + s.slen.toNat) / 3) = false ∧
            s.len.toNat + s.slen.toNat ≤ p.cap ∧ ∃ s1, memWriteList p s.len.toNat bs s = some s1 ∧
            t = (s1.setStream
              (if fillsClass (clsOf p s) ((s.len.toNat + s.slen.toNat) / 3) then .complete else .partly)
              (s.len + s.slen) 0#16).record .ok {}))))) := by
  simp only [appendWith] at h
  split at h
  · exact .inl ⟨‹_›, (Host.Outcome.next.inj h).symm⟩
  · rename_i hterm
    split at h
    · exact .inr (.inl ⟨hterm, ‹_›, (Host.Outcome.next.inj h).symm⟩)
    · rename_i hk
      refine .inr (.inr ⟨hterm, by omega, by omega, ?_⟩)
      split at h
      · simp at h
      · rename_i bs hbs
        refine ⟨bs, hbs, ?_⟩
        split at h
        · exact .inl ⟨_, _, _, ‹_›, (Host.Outcome.next.inj h).symm⟩
        · rename_i hgood
          refine .inr ⟨hgood, ?_⟩
          split at h
          · exact .inl ⟨‹_›, (Host.Outcome.next.inj h).symm⟩
          · rename_i hex
            split at h
            · exact .inr (.inl ⟨by simpa using hex, ‹_›, (Host.Outcome.next.inj h).symm⟩)
            · rename_i hcap
              refine .inr (.inr ⟨by simpa using hex, by omega, ?_⟩)
              simp only [commitAppend] at h
              split at h
              · simp at h
              · exact ⟨_, ‹_›, (Host.Outcome.next.inj h).symm⟩

/-- The overwrite of S.SETDATA (R178). -/
theorem commitSetdata_cases (h : commitSetdata p s = .next t) :
    ∃ bs s1, stageReadList p s 0 s.slen.toNat = some bs ∧ memWriteList p 0 bs s = some s1 ∧
      t = (s1.setStream .complete s.slen 0#16).record .ok {} := by
  simp only [commitSetdata] at h
  split at h
  · simp at h
  · split at h
    · simp at h
    · exact ⟨_, _, ‹_›, ‹_›, (Host.Outcome.next.inj h).symm⟩

/-- S.SETDATA, in the order of its checks (R178, R215). -/
theorem setdataWith_cases (h : setdataWith p s = .next t) :
    (s.astate ≠ .empty ∧ t = (dropStage s).record .errState {}) ∨
    (s.astate = .empty ∧ (∃ e, expectedTriplets (clsOf p s) = some e ∧ s.slen.toNat ≠ 3 * e) ∧
      t = (invalidate s).record .errLength {}) ∨
    (s.astate = .empty ∧ expectedTriplets (clsOf p s) = none ∧ (s.slen.toNat = 0 ∨ s.slen.toNat % 3 ≠ 0) ∧
      t = (invalidate s).record .errAlign {}) ∨
    (s.astate = .empty ∧ (∀ e, expectedTriplets (clsOf p s) = some e → s.slen.toNat = 3 * e) ∧
      0 < s.slen.toNat ∧ s.slen.toNat % 3 = 0 ∧
      ∃ bs s1, stageReadList p s 0 s.slen.toNat = some bs ∧ memWriteList p 0 bs s = some s1 ∧
        t = (s1.setStream .complete s.slen 0#16).record .ok {}) := by
  simp only [setdataWith] at h
  split at h
  · exact .inl ⟨‹_›, (Host.Outcome.next.inj h).symm⟩
  · rename_i hne
    have he : s.astate = .empty := not_not.1 hne
    split at h
    · rename_i e hexp
      split at h
      · exact .inr (.inl ⟨he, ⟨e, hexp, ‹_›⟩, (Host.Outcome.next.inj h).symm⟩)
      · rename_i hk
        have hk' : s.slen.toNat = 3 * e := not_not.1 hk
        have := expectedTriplets_range hexp
        refine .inr (.inr (.inr ⟨he, fun e' he' => ?_, by omega, by omega, commitSetdata_cases h⟩))
        rw [hexp] at he'
        cases he'
        exact hk'
    · rename_i hexp
      split at h
      · exact .inr (.inr (.inl ⟨he, hexp, ‹_›, (Host.Outcome.next.inj h).symm⟩))
      · exact .inr (.inr (.inr ⟨he, fun e' he' => by simp [hexp] at he', by omega, by omega, commitSetdata_cases h⟩))

/-- S.ENCODE (R183). -/
theorem encodeWith_cases (h : encodeWith p s = .next t) :
    (s.astate ≠ .complete ∧ t = s.record .errState {}) ∨
    (s.astate = .complete ∧ ∃ s1, encodeTriplets p (s.len.toNat / 3) s = some s1 ∧ t = s1.record .ok {}) := by
  simp only [encodeWith] at h
  split at h
  · exact .inl ⟨‹_›, (Host.Outcome.next.inj h).symm⟩
  · split at h
    · simp at h
    · exact .inr ⟨not_not.1 ‹_›, _, ‹_›, (Host.Outcome.next.inj h).symm⟩

/-- S.VERIFY (R186). -/
theorem verifyWith_cases (p : Params) (s : State) :
    (s.astate = .invalid ∧ verifyWith p s = s.record .errState {}) ∨
    (s.astate ≠ .invalid ∧ lengthOk (clsOf p s) s.len.toNat = true ∧
      verifyWith p s = (s.setStream (if s.astate = .partly then .complete else s.astate) s.len s.slen).record .ok
        { boolFlag := true }) ∨
    (s.astate ≠ .invalid ∧ lengthOk (clsOf p s) s.len.toNat = false ∧
      verifyWith p s = (s.setStream .invalid s.len s.slen).record .errLength {}) := by
  simp only [verifyWith]
  split
  · exact .inl ⟨‹_›, rfl⟩
  · split
    · exact .inr (.inl ⟨‹_›, ‹_›, rfl⟩)
    · exact .inr (.inr ⟨‹_›, Bool.eq_false_iff.2 ‹_›, rfl⟩)

/-- S.READ (R188). -/
theorem readWith_cases (h : readWith p s = .next t) :
    (s.len.toNat ≤ ix s.opa ∧ t = s.record .errRange {}) ∨
    (ix s.opa < s.len.toNat ∧ ∃ b, memRead p s (ix s.opa) = some b ∧ t = s.record .ok { res0 := zext8 b }) := by
  simp only [readWith] at h
  split at h
  · exact .inl ⟨‹_›, (Host.Outcome.next.inj h).symm⟩
  · split at h
    · exact .inr ⟨by omega, _, ‹_›, (Host.Outcome.next.inj h).symm⟩
    · simp at h

/-- S.READT (R190). -/
theorem readtWith_cases (h : readtWith p s = .next t) :
    (s.len.toNat < 3 * ix s.opa + 3 ∧ t = s.record .errRange {}) ∨
    (3 * ix s.opa + 3 ≤ s.len.toNat ∧ ∃ t0 t1 t2, memRead p s (3 * ix s.opa) = some t0 ∧
      memRead p s (3 * ix s.opa + 1) = some t1 ∧ memRead p s (3 * ix s.opa + 2) = some t2 ∧
      t = s.record .ok { res0 := packT24 t0 t1 t2 }) := by
  simp only [readtWith] at h
  split at h
  · exact .inl ⟨‹_›, (Host.Outcome.next.inj h).symm⟩
  · split at h
    · exact .inr ⟨by omega, _, _, _, ‹_›, ‹_›, ‹_›, (Host.Outcome.next.inj h).symm⟩
    · simp at h

/-- The length sum of S.APPEND does not wrap inside CAP (R7, R42). -/
theorem len_add_slen {p : Params} (hp : p.valid = true) (s : State) (h : s.len.toNat + s.slen.toNat ≤ p.cap) :
    (s.len + s.slen).toNat = s.len.toNat + s.slen.toNat := by
  have := (valid_cap hp).2.1
  rw [BitVec.toNat_add, Nat.mod_eq_of_lt (by omega)]

/-- The count of S.PUSH does not wrap inside CAP (R7, R43). -/
theorem slen_add_one {p : Params} (hp : p.valid = true) (s : State) (h : s.slen.toNat < p.cap) :
    (s.slen + 1#16).toNat = s.slen.toNat + 1 := by
  have := (valid_cap hp).2.1
  rw [BitVec.toNat_add, BitVec.toNat_ofNat, Nat.mod_eq_of_lt (a := 1) (by omega), Nat.mod_eq_of_lt (by omega)]

/-- A pure command writes the results and nothing else (R213). -/
theorem exec_pure_cases {i : Instr} (hi : isPure i = true) (s : State) : ∃ c r, exec i s = .next (s.record c r) := by
  cases i <;> simp only [isPure, Bool.false_eq_true] at hi
  case crcGen => exact ⟨_, _, rfl⟩
  case crcChk => exact ⟨_, _, rfl⟩
  case valDec16 =>
    simp only [exec, execValDec16, p16]
    rcases finishDecoded_cases (dec16 (byteOf s.opa 1) (byteOf s.opa 0)) s with ⟨_, _, _, h⟩ | ⟨_, _, h⟩ <;>
      exact ⟨_, _, by rw [h]⟩
  case valDec32 =>
    simp only [exec, execValDec32, w4]
    rcases finishDecoded_cases (dec32 (byteOf s.opa 3) (byteOf s.opa 2) (byteOf s.opa 1) (byteOf s.opa 0)) s with
      ⟨_, _, _, h⟩ | ⟨_, _, h⟩ <;> exact ⟨_, _, by rw [h]⟩
  case valEnc32 => rcases execValEnc32_cases s with ⟨_, h⟩ | ⟨_, _, h⟩ <;> exact ⟨_, _, h⟩
  case hdrEnc => exact ⟨_, _, rfl⟩
  case hdrDec => rcases execHdrDec_cases s with ⟨_, h⟩ | ⟨_, h⟩ <;> exact ⟨_, _, h⟩

/-- What any command can be, to be taken apart by the lemma of the command it is. -/
theorem exec_cases {i : Instr} (h : exec i s = .next t) :
    (i = .nop ∧ t = s) ∨ (isPure i = true ∧ ∃ c r, t = s.record c r) ∨ (i = .sInit ∧ t = initStream s) ∨
    (i = .sPush ∧ pushWith Config.chip s = .next t) ∨ (i = .sAppend ∧ appendWith Config.chip s = .next t) ∨
    (i = .sSetdata ∧ setdataWith Config.chip s = .next t) ∨ (i = .sEncode ∧ encodeWith Config.chip s = .next t) ∨
    (i = .sVerify ∧ t = verifyWith Config.chip s) ∨ (i = .sRead ∧ readWith Config.chip s = .next t) ∨
    (i = .sReadt ∧ readtWith Config.chip s = .next t) := by
  by_cases hp : isPure i = true
  · obtain ⟨c, r, h'⟩ := exec_pure_cases hp s
    rw [h'] at h
    exact .inr (.inl ⟨hp, c, r, (Host.Outcome.next.inj h).symm⟩)
  · cases i <;> simp only [isPure, not_true_eq_false] at hp
    case nop => exact .inl ⟨rfl, (Host.Outcome.next.inj h).symm⟩
    case sInit => exact .inr (.inr (.inl ⟨rfl, (Host.Outcome.next.inj h).symm⟩))
    case sPush => exact .inr (.inr (.inr (.inl ⟨rfl, h⟩)))
    case sAppend => exact .inr (.inr (.inr (.inr (.inl ⟨rfl, h⟩))))
    case sSetdata => exact .inr (.inr (.inr (.inr (.inr (.inl ⟨rfl, h⟩)))))
    case sEncode => exact .inr (.inr (.inr (.inr (.inr (.inr (.inl ⟨rfl, h⟩))))))
    case sVerify => exact .inr (.inr (.inr (.inr (.inr (.inr (.inr (.inl ⟨rfl, (Host.Outcome.next.inj h).symm⟩)))))))
    case sRead => exact .inr (.inr (.inr (.inr (.inr (.inr (.inr (.inr (.inl ⟨rfl, h⟩))))))))
    case sReadt => exact .inr (.inr (.inr (.inr (.inr (.inr (.inr (.inr (.inr ⟨rfl, h⟩))))))))

/-- What one step can be: nothing to come, an access or reset edge, or a command word (R30, R62, R241). -/
theorem step_cases (h : step s = .next t) :
    (s.inputs = [] ∧ t = s) ∨
    (∃ a rest, s.inputs = a :: rest ∧ takeInput a { s with inputs := rest } = (t, none)) ∨
    (∃ w rest, s.inputs = .write 0#4 w :: rest ∧ s.resetAsserted = false ∧
      runCommand w { s with inputs := rest } = .next t) := by
  simp only [step, nextInput] at h
  split at h
  · rename_i hn
    split at hn
    · exact .inl ⟨‹_›, (Host.Outcome.next.inj h).symm⟩
    · simp at hn
  · rename_i a s1 hn
    split at hn
    · simp at hn
    · rename_i b rest hin
      simp only [Option.some.injEq, Prod.mk.injEq] at hn
      obtain ⟨rfl, rfl⟩ := hn
      split at h
      · rename_i s2 hs2
        obtain rfl := Host.Outcome.next.inj h
        exact .inr (.inl ⟨_, _, hin, hs2⟩)
      · rename_i s2 w hs2
        cases b with
        | read i => simp [takeInput] at hs2
        | assertReset => simp [takeInput] at hs2
        | releaseReset => simp [takeInput] at hs2
        | write i v =>
          simp only [takeInput] at hs2
          split at hs2
          · simp at hs2
          · rename_i hr
            split at hs2
            · rename_i hc
              simp only [Prod.mk.injEq, Option.some.injEq] at hs2
              obtain ⟨rfl, rfl⟩ := hs2
              have hi : i = 0#4 := by
                have key : ∀ i : RegIndex, regOfIndex i = .cmd → i = 0#4 := by decide
                exact key i hc
              subst hi
              exact .inr (.inr ⟨_, _, hin, by simpa using hr, h⟩)
            · simp at hs2

end Sys2Proof.Laws
end

