-- ==== Sys2Proof/Laws/PerInstr.lean ====
section
/-! SUPPORT. Facts about every command as syntax, one lemma for each constructor of Instr. -/

/-- The command's word is one of those that R86 (30_encoding.md) leaves, and its field Z is zero (R80). -/
def Sys2Proof.Laws.WordListed.Statement (i : Sys2Proof.Instr) : Prop :=
  Sys2Proof.wellFormedWord (Sys2Proof.encode i) = true ∧ (Sys2Proof.encode i).extractLsb' 8 24 = 0#24

theorem Sys2Proof.Laws.WordListed.nop : Sys2Proof.Laws.WordListed.Statement .nop := by
  constructor <;> decide

theorem Sys2Proof.Laws.WordListed.crcGen : Sys2Proof.Laws.WordListed.Statement .crcGen := by
  constructor <;> decide

theorem Sys2Proof.Laws.WordListed.crcChk : Sys2Proof.Laws.WordListed.Statement .crcChk := by
  constructor <;> decide

theorem Sys2Proof.Laws.WordListed.valDec16 : Sys2Proof.Laws.WordListed.Statement .valDec16 := by
  constructor <;> decide

theorem Sys2Proof.Laws.WordListed.valDec32 : Sys2Proof.Laws.WordListed.Statement .valDec32 := by
  constructor <;> decide

theorem Sys2Proof.Laws.WordListed.valEnc32 : Sys2Proof.Laws.WordListed.Statement .valEnc32 := by
  constructor <;> decide

theorem Sys2Proof.Laws.WordListed.hdrEnc : Sys2Proof.Laws.WordListed.Statement .hdrEnc := by
  constructor <;> decide

theorem Sys2Proof.Laws.WordListed.hdrDec : Sys2Proof.Laws.WordListed.Statement .hdrDec := by
  constructor <;> decide

theorem Sys2Proof.Laws.WordListed.sInit : Sys2Proof.Laws.WordListed.Statement .sInit := by
  constructor <;> decide

theorem Sys2Proof.Laws.WordListed.sPush : Sys2Proof.Laws.WordListed.Statement .sPush := by
  constructor <;> decide

theorem Sys2Proof.Laws.WordListed.sAppend : Sys2Proof.Laws.WordListed.Statement .sAppend := by
  constructor <;> decide

theorem Sys2Proof.Laws.WordListed.sSetdata : Sys2Proof.Laws.WordListed.Statement .sSetdata := by
  constructor <;> decide

theorem Sys2Proof.Laws.WordListed.sEncode : Sys2Proof.Laws.WordListed.Statement .sEncode := by
  constructor <;> decide

theorem Sys2Proof.Laws.WordListed.sVerify : Sys2Proof.Laws.WordListed.Statement .sVerify := by
  constructor <;> decide

theorem Sys2Proof.Laws.WordListed.sRead : Sys2Proof.Laws.WordListed.Statement .sRead := by
  constructor <;> decide

theorem Sys2Proof.Laws.WordListed.sReadt : Sys2Proof.Laws.WordListed.Statement .sReadt := by
  constructor <;> decide
end

