-- ==== Sys2Proof/Tests/Slice0.lean ====
section
/-! SUPPORT. The model's own tests. Expected values are those of spec/95_test_vectors.md (section or row named at each
test), which gives them for LENCODE in listing order and CAP_TRIPLETS = 4; a test that depends on those parameters runs
the command's operation at them. Then the witnesses that the premises of each statement can be met. -/

namespace Sys2Proof.Tests

open Sys2Proof.Machine Sys2Proof.Safety

set_option maxRecDepth 10000

/-! ### Helpers -/

/-- The parameters of 95_test_vectors.md section 2.6. -/
def vectors : Params := ⟨4, .c69V⟩

/-- The reset state with these operands. -/
def ops (a b : Word) : State := { State.reset with opa := a, opb := b }

/-- A buffer that holds these bytes from index 0. -/
def bytes (bs : List Byte) : Memory := (List.range bs.length).zip bs

/-- A stream in a given class code and state, with these bytes of BUF and STAGE. -/
def stream (l : BitVec 2) (a : AState) (buf stage : List Byte) : State :=
  { State.reset with
    lcode := l, astate := a, buf := bytes buf, len := BitVec.ofNat 16 buf.length
    stage := bytes stage, slen := BitVec.ofNat 16 stage.length }

/-- A check of the next state; false where there is none. -/
def after (o : Host.Outcome State Fault Refusal) (f : State → Bool) : Bool :=
  match o with
  | .next t => f t
  | _ => false

theorem exists_of_after {o : Host.Outcome State Fault Refusal} {f : State → Bool} (h : after o f = true) :
    ∃ t, o = .next t ∧ f t = true := by
  cases o with
  | next t => exact ⟨t, rfl, h⟩
  | fault r => exact absurd h (by simp [after])
  | refused r => exact absurd h (by simp [after])

/-- STATUS, RES0, RES1, REXP and ECODE after a command. -/
def gives (o : Host.Outcome State Fault Refusal) (status res0 res1 rexp ecode : Word) : Bool :=
  after o fun t => [statusWord t, t.res0, t.res1, t.rexp, t.ecode] == [status, res0, res1, rexp, ecode]

/-- STATUS, LEN, SLEN and what BUF lists after a command. -/
def leaves (o : Host.Outcome State Fault Refusal) (status : Word) (len slen : Nat) (buf : List Byte) : Bool :=
  after o fun t => statusWord t == status && t.len.toNat == len && t.slen.toNat == slen && t.buf == bytes buf

/-! ### WellFormed smoke -/

theorem test_wf_refuses_z_bits : zClear 0x00000100#32 = false ∧ wellFormedWord 0x80000000#32 = false := by decide

theorem test_wf_refuses_unlisted_opcodes :
    ([0x03#8, 0x0F#8, 0x13#8, 0x1F#8, 0x22#8, 0x2F#8, 0x38#8, 0xFF#8].map listedOpcode).all (· == false) = true := by
  decide

theorem test_wf_takes_listed_opcodes :
    ([0x00#32, 0x02#32, 0x10#32, 0x12#32, 0x20#32, 0x21#32, 0x30#32, 0x37#32].map wellFormedWord).all id = true := by
  decide

/-! ### Decoding: words written out from the opcode map of R85 -/

theorem test_decode_system_and_crc :
    decode 0b00000000000000000000000000000000#32 = .ok .nop ∧
    decode 0b00000000000000000000000000000001#32 = .ok .crcGen ∧
    decode 0b00000000000000000000000000000010#32 = .ok .crcChk := by decide

theorem test_decode_value :
    decode 0b00000000000000000000000000010000#32 = .ok .valDec16 ∧
    decode 0b00000000000000000000000000010001#32 = .ok .valDec32 ∧
    decode 0b00000000000000000000000000010010#32 = .ok .valEnc32 := by decide

theorem test_decode_header :
    decode 0b00000000000000000000000000100000#32 = .ok .hdrEnc ∧
    decode 0b00000000000000000000000000100001#32 = .ok .hdrDec := by decide

theorem test_decode_stream :
    decode 0b00000000000000000000000000110000#32 = .ok .sInit ∧
    decode 0b00000000000000000000000000110001#32 = .ok .sPush ∧
    decode 0b00000000000000000000000000110010#32 = .ok .sAppend ∧
    decode 0b00000000000000000000000000110011#32 = .ok .sSetdata ∧
    decode 0b00000000000000000000000000110100#32 = .ok .sEncode ∧
    decode 0b00000000000000000000000000110101#32 = .ok .sVerify ∧
    decode 0b00000000000000000000000000110110#32 = .ok .sRead ∧
    decode 0b00000000000000000000000000110111#32 = .ok .sReadt := by decide

/-- Section 2.7: the illegal words. -/
theorem test_decode_rejects_by_name :
    decode 0x00000100#32 = .error .zBits ∧ decode 0x00000003#32 = .error .opcode ∧
    decode 0x000000FF#32 = .error .opcode ∧ decode 0x00000038#32 = .error .opcode := by decide

theorem test_decode_table_word : decodeTableWord 32 0x12 = some .valEnc32 ∧ decodeTableWord 32 0x13 = none := by decide

/-! ### One step of each command -/

/-- Section 2.7: NOP keeps RES0. -/
theorem test_nop_keeps_results :
    after (step (State.withFetchWord { State.reset with res0 := 0x3D#32 } 32 0x00)) (fun t => t.res0 == 0x3D#32) = true := by
  decide

/-- Section 2.7: an unassigned opcode, and Z not zero. -/
theorem test_illegal_words :
    gives (step (State.withFetchWord { State.reset with res0 := 0x3D#32 } 32 0x03)) 0x009#32 0#32 0#32 0#32 0#32 = true ∧
    gives (step (State.withFetchWord State.reset 32 0x100)) 0x009#32 0#32 0#32 0#32 0#32 = true := by decide

/-- X1. -/
theorem test_crc_gen : gives (exec .crcGen (ops 0x0000FE00#32 0#32)) 0x000#32 0x3D#32 0#32 0#32 0#32 = true := by
  decide

/-- Section 2.1: OPA[31:16] is ignored; the lowest bit. -/
theorem test_crc_gen_low_half :
    gives (exec .crcGen (ops 0x1234FE00#32 0#32)) 0x000#32 0x3D#32 0#32 0#32 0#32 = true ∧
    gives (exec .crcGen (ops 0x00000001#32 0#32)) 0x000#32 0xF8#32 0#32 0#32 0#32 = true := by decide

/-- X2 and section 2.1, OPA[31:24] ignored. -/
theorem test_crc_chk_match :
    gives (exec .crcChk (ops 0xAAFE003D#32 0#32)) 0x010#32 0x3D#32 0x3D#32 0#32 0#32 = true := by decide

/-- X3. -/
theorem test_crc_chk_mismatch :
    gives (exec .crcChk (ops 0x00FE003C#32 0#32)) 0x000#32 0x3D#32 0x3C#32 0#32 0#32 = true := by decide

/-- Section 2.2: 10.52, and the smallest S. -/
theorem test_val_dec16_values :
    gives (exec .valDec16 (ops 0xFFFF731C#32 0#32)) 0x000#32 0x41C#32 0#32 2#32 0#32 = true ∧
    gives (exec .valDec16 (ops 0x0000FF00#32 0#32)) 0x000#32 0xFFFFF800#32 0#32 0#32 0#32 = true := by decide

/-- X7, and section 2.2's rows on both sides of the first sentinel. -/
theorem test_val_dec16_sentinels :
    gives (exec .valDec16 (ops 0x0000C0ED#32 0#32)) 0x001#32 0#32 0#32 0#32 13#32 = true ∧
    gives (exec .valDec16 (ops 0x0000C0E0#32 0#32)) 0x001#32 0#32 0#32 0#32 0#32 = true ∧
    gives (exec .valDec16 (ops 0x0000C0DF#32 0#32)) 0x000#32 0x37DF#32 0#32 0#32 0#32 = true := by decide

/-- X4, and section 2.3: the last value word with the smallest exponent. -/
theorem test_val_dec32_values :
    gives (exec .valDec32 (ops 0x72FF00FC#32 0#32)) 0x000#32 0xFFFFFFFC#32 0#32 2#32 0#32 = true ∧
    gives (exec .valDec32 (ops 0xF8F51FFF#32 0#32)) 0x000#32 0x01F5E0FF#32 0#32 0xFFFFFFF1#32 0#32 = true := by
  decide

/-- Section 2.3: two sentinels, and the wrap-free branch. -/
theorem test_val_dec32_sentinels :
    gives (exec .valDec32 (ops 0xF8F51EFF#32 0#32)) 0x001#32 0#32 0#32 0#32 255#32 = true ∧
    gives (exec .valDec32 (ops 0x80FFBA00#32 0#32)) 0x001#32 0#32 0#32 0#32 0x96400#32 = true ∧
    gives (exec .valDec32 (ops 0x8700FF00#32 0#32)) 0x000#32 0x02000000#32 0#32 0#32 0#32 = true := by decide

/-- X5, and section 2.4: OPB[31:8] is ignored; S = -2^31 is encoded. -/
theorem test_val_enc32_packs :
    gives (exec .valEnc32 (ops 0xFFFFFFFC#32 2#32)) 0x000#32 0x0072FF84#32 0x0000FC05#32 2#32 0#32 = true ∧
    gives (exec .valEnc32 (ops 5384#32 0xFFFFFF02#32)) 0x000#32 0x00710048#32 0x00EA0806#32 2#32 0#32 = true ∧
    gives (exec .valEnc32 (ops 0x80000000#32 0#32)) 0x000#32 0x0081005C#32 0x00FF0028#32 0#32 0#32 = true := by
  decide

/-- Section 2.4: the four ERR_RANGE rows. -/
theorem test_val_enc32_range :
    ([(12345#32, 17#32), (12345#32, 0xF0#32), (BitVec.ofInt 32 (-33554433), 0#32), (167772160#32, 0#32)].all fun q =>
      gives (exec .valEnc32 (ops q.1 q.2)) 0x008#32 0#32 0#32 0#32 0#32) = true := by decide

/-- X8, and section 2.5: every field set. -/
theorem test_hdr_enc :
    gives (exec .hdrEnc (ops 0x00010001#32 0#32)) 0x000#32 0x00FE003D#32 0#32 0#32 0#32 = true ∧
    gives (exec .hdrEnc (ops 0x00004301#32 0#32)) 0x000#32 0x00FE34B1#32 0#32 0#32 0#32 = true ∧
    gives (exec .hdrEnc (ops 0x00001001#32 0#32)) 0x000#32 0x00FE0805#32 0#32 0#32 0#32 = true := by decide

/-- X9, and section 2.5. -/
theorem test_hdr_dec :
    gives (exec .hdrDec (ops 0x00FE003D#32 0#32)) 0x000#32 0x00000001#32 0#32 0#32 0#32 = true ∧
    gives (exec .hdrDec (ops 0x00FE34B1#32 0#32)) 0x000#32 0x00004301#32 0#32 0#32 0#32 = true := by decide

/-- Section 2.5: two bad CRCs. -/
theorem test_hdr_dec_bad_crc :
    gives (exec .hdrDec (ops 0x00FE003C#32 0#32)) 0x002#32 0x3D#32 0x3C#32 0#32 0#32 = true ∧
    gives (exec .hdrDec (ops 0x0000FFDB#32 0#32)) 0x002#32 0x0C#32 0xDB#32 0#32 0#32 = true := by decide

/-- Section 2.6, last paragraph: S.INIT with OPA[31:2] ignored. -/
theorem test_s_init :
    leaves (exec .sInit { stream 0#2 .invalid [] [] with opa := 0xFFFFFFFE#32 }) 0x100#32 0 0 [] = true := by decide

/-- S34 and S35: the twelfth byte fits and a thirteenth does not. -/
theorem test_s_push :
    leaves (pushWith vectors { stream 0#2 .empty [] (List.replicate 11 0#8) with opa := 0x1FE#32 }) 0x000#32 0 12 [] =
      true ∧
    leaves (pushWith vectors (stream 0#2 .empty [] (List.replicate 12 0#8))) 0x007#32 0 12 [] = true := by
  decide

/-- S1, S8, S18. -/
theorem test_s_append_commits :
    leaves (appendWith vectors (stream 0#2 .empty [] [0xFE#8, 0x00#8, 0x3D#8])) 0x040#32 3 0 [0xFE#8, 0x00#8, 0x3D#8] =
      true ∧
    leaves (appendWith vectors (stream 1#2 .partly [0xFE#8, 0x03#8, 0x34#8] [0x73#8, 0x1C#8, 0x36#8])) 0x0C0#32 6 0
      [0xFE#8, 0x03#8, 0x34#8, 0x73#8, 0x1C#8, 0x36#8] = true ∧
    after (appendWith vectors (stream 3#2 .partly [0xFE#8, 0x07#8, 0x28#8]
      [0x73#8, 0x1C#8, 0x36#8, 0xC0#8, 0xED#8, 0x9F#8, 0x73#8, 0x1C#8, 0x36#8]))
      (fun t => statusWord t == 0x1A0#32 && t.len == 12#16) = true := by decide

/-- S2, S5, S6, S10, S12, S19. -/
theorem test_s_append_errors :
    leaves (appendWith vectors (stream 0#2 .empty [] [0xFE#8, 0x00#8])) 0x065#32 0 0 [] = true ∧
    leaves (appendWith vectors (stream 0#2 .empty [] [0xFE#8, 0x00#8, 0x3D#8, 0x73#8, 0x1C#8, 0x36#8])) 0x064#32 0 0 [] =
      true ∧
    leaves (appendWith vectors (stream 0#2 .complete [0xFE#8, 0x00#8, 0x3D#8] [0x73#8, 0x1C#8, 0x36#8])) 0x046#32 3 0
      [0xFE#8, 0x00#8, 0x3D#8] = true ∧
    gives (appendWith vectors (stream 1#2 .empty []
      [0xFE#8, 0x03#8, 0x34#8, 0x73#8, 0x1C#8, 0x00#8, 0xC0#8, 0xED#8, 0x9F#8])) 0x0E2#32 0x36#32 0#32 0#32 1#32 = true ∧
    leaves (appendWith vectors (stream 1#2 .empty [] [0xFE#8, 0x03#8, 0x00#8, 0x00#8])) 0x0E5#32 0 0 [] = true ∧
    leaves (appendWith vectors (stream 3#2 .partly [0xFE#8, 0x07#8, 0x28#8]
      [0x73#8, 0x1C#8, 0x36#8, 0xC0#8, 0xED#8, 0x9F#8, 0x73#8, 0x1C#8, 0x36#8, 0xC0#8, 0xED#8, 0x9F#8])) 0x1E7#32 3 0
      [0xFE#8, 0x07#8, 0x28#8] = true := by decide

/-- S23, S26. -/
theorem test_s_setdata_commits :
    leaves (setdataWith vectors (stream 1#2 .empty [] [0x01#8, 0x03#8, 0x00#8, 0x8C#8, 0x1C#8, 0x00#8])) 0x0C0#32 6 0
      [0x01#8, 0x03#8, 0x00#8, 0x8C#8, 0x1C#8, 0x00#8] = true ∧
    leaves (setdataWith vectors (stream 3#2 .empty [] [0x01#8, 0x07#8, 0x00#8, 0x8C#8, 0x1C#8, 0x00#8])) 0x1C0#32 6 0
      [0x01#8, 0x07#8, 0x00#8, 0x8C#8, 0x1C#8, 0x00#8] = true := by decide

/-- S24, S27, S28, S29. -/
theorem test_s_setdata_errors :
    leaves (setdataWith vectors (stream 1#2 .empty [] (List.replicate 5 0#8))) 0x0E4#32 0 0 [] = true ∧
    leaves (setdataWith vectors (stream 3#2 .empty [] (List.replicate 4 0#8))) 0x1E5#32 0 0 [] = true ∧
    leaves (setdataWith vectors (stream 3#2 .empty [] [])) 0x1E5#32 0 0 [] = true ∧
    leaves (setdataWith vectors (stream 1#2 .partly [0xFE#8, 0x03#8, 0x34#8] (List.replicate 6 0#8))) 0x0A6#32 3 0
      [0xFE#8, 0x03#8, 0x34#8] = true := by decide

/-- S31 and P8's second encode. -/
theorem test_s_encode :
    leaves (encodeWith vectors (stream 1#2 .complete [0x01#8, 0x03#8, 0x00#8, 0x8C#8, 0x1C#8, 0x00#8] [])) 0x0C0#32 6 0
      [0xFE#8, 0x03#8, 0x34#8, 0x73#8, 0x1C#8, 0x36#8] = true ∧
    leaves (encodeWith vectors (stream 0#2 .complete [0xFE#8, 0x00#8, 0x3D#8] [])) 0x040#32 3 0
      [0x01#8, 0x00#8, 0xEA#8] = true := by decide

/-- S32, S33. -/
theorem test_s_encode_errors :
    leaves (encodeWith vectors (stream 1#2 .partly [0xFE#8, 0x03#8, 0x34#8] [])) 0x0A6#32 3 0 [0xFE#8, 0x03#8, 0x34#8] =
      true ∧
    leaves (encodeWith vectors (stream 1#2 .empty [] [])) 0x086#32 0 0 [] = true := by decide

/-- S14, S20. -/
theorem test_s_verify_ok :
    leaves (.next (verifyWith vectors (stream 1#2 .complete (List.replicate 6 0#8) []))) 0x0D0#32 6 0
      (List.replicate 6 0#8) = true ∧
    leaves (.next (verifyWith vectors (stream 3#2 .partly [0xFE#8, 0x07#8, 0x28#8] []))) 0x1D0#32 3 0
      [0xFE#8, 0x07#8, 0x28#8] = true := by decide

/-- S13, S15, S16, S21. -/
theorem test_s_verify_errors :
    leaves (.next (verifyWith vectors (stream 1#2 .partly [0xFE#8, 0x03#8, 0x34#8] []))) 0x0E4#32 3 0
      [0xFE#8, 0x03#8, 0x34#8] = true ∧
    leaves (.next (verifyWith vectors (stream 1#2 .empty [] []))) 0x0E4#32 0 0 [] = true ∧
    leaves (.next (verifyWith vectors (stream 0#2 .invalid [] []))) 0x066#32 0 0 [] = true ∧
    leaves (.next (verifyWith vectors (stream 3#2 .empty [] []))) 0x1E4#32 0 0 [] = true := by decide

/-- Section 2.6, the S.READ rows. -/
theorem test_s_read :
    gives (readWith vectors { stream 0#2 .complete [0xFE#8, 0x00#8, 0x3D#8] [] with opa := 0x00010000#32 })
      0x040#32 0xFE#32 0#32 0#32 0#32 = true ∧
    gives (readWith vectors { stream 0#2 .complete [0xFE#8, 0x00#8, 0x3D#8] [] with opa := 2#32 })
      0x040#32 0x3D#32 0#32 0#32 0#32 = true ∧
    gives (readWith vectors { stream 0#2 .complete [0xFE#8, 0x00#8, 0x3D#8] [] with opa := 3#32 })
      0x048#32 0#32 0#32 0#32 0#32 = true := by decide

/-- Section 2.6, the S.READT rows. -/
theorem test_s_readt :
    gives (readtWith vectors { stream 0#2 .complete [0xFE#8, 0x00#8, 0x3D#8] [] with opa := 0x00010000#32 })
      0x040#32 0x00FE003D#32 0#32 0#32 0#32 = true ∧
    gives (readtWith vectors { stream 0#2 .complete [0xFE#8, 0x00#8, 0x3D#8] [] with opa := 1#32 })
      0x048#32 0#32 0#32 0#32 0#32 = true := by decide

/-- Section 2.7: a write of a reserved index changes nothing and a read of one gives 0. -/
theorem test_reserved_index :
    after (step { State.reset with inputs := [.write 0xA#4 0x12345678#32] }) (fun t => t == State.reset) = true ∧
    after (step { State.reset with inputs := [.read 0xA#4] }) (fun t => t.reads == [0#32]) = true := by decide

/-! ### Witnesses: the premises of each statement can be met

Where a clause needs the class Variable, or a length at CAP, the code or the length is the chip's own. -/

theorem wit_reset_released : State.reset.resetAsserted = false ∧ State.reset.inputs = [] := by decide

theorem wit_AccessesUnderResetHaveNoEffect : { State.reset with resetAsserted := true }.resetAsserted = true := rfl

theorem wit_HostAccessesReachTheNamedRegister : 3 ≤ (3#4).toNat ∧ 3 ≤ (15#4).toNat := by decide

theorem wit_StepRunsTheDecodedCommand :
    (State.reset.withFetchWord 32 0x36).resetAsserted = false ∧
    (State.reset.withFetchWord 32 0x36).inputs = [.write 0#4 0x00000036#32] ∧ decode 0x00000036#32 = .ok .sRead ∧
    Instr.sRead.wf = true := by decide

theorem wit_IllegalWordsReportErrOpcode :
    bitsAt 0x00000100#32 8 24 ≠ 0 ∧ bitsAt 0x80000000#32 8 24 ≠ 0 ∧ bitsAt 0x03#32 0 8 = 0x03 ∧
    bitsAt 0x0F#32 0 8 = 0x0F ∧ bitsAt 0x13#32 0 8 = 0x13 ∧ bitsAt 0x1F#32 0 8 = 0x1F ∧ bitsAt 0x22#32 0 8 = 0x22 ∧
    bitsAt 0x2F#32 0 8 = 0x2F ∧ bitsAt 0x38#32 0 8 = 0x38 ∧ bitsAt 0xFF#32 0 8 = 0xFF := by decide

theorem wit_DecodeAndEncodeAreInverse :
    Instr.sReadt.wf = true ∧ decode 0x00000037#32 = .ok .sReadt ∧ wellFormedWord 0x00000037#32 = true := by decide

theorem wit_CommandsNeverWriteOperands : ∃ t, exec .sPush (ops 5#32 6#32) = .next t ∧ (t.slen == 1#16) = true :=
  exists_of_after (by decide)

/-- OnlyTheNamedWritersChangeState: LCODE, LEN, SLEN and ASTATE change. -/
theorem wit_OnlyTheNamedWritersChangeState_registers :
    (∃ t, exec .sInit (ops 3#32 0#32) = .next t ∧ decide (t.lcode ≠ State.reset.lcode) = true) ∧
    (∃ t, exec .sAppend (stream 0#2 .empty [] [0x00#8, 0x00#8, 0xFF#8]) = .next t ∧
      (t.len == 3#16 && t.slen == 0#16 && decide (t.astate = .complete)) = true) ∧
    (∃ t, exec .sVerify State.reset = .next t ∧ (decide (t.astate = .invalid) && decide (t.scode = .errLength)) = true) :=
  ⟨exists_of_after (by decide), exists_of_after (by decide), exists_of_after (by decide)⟩

/-- OnlyTheNamedWritersChangeState: a byte of BUF and a byte of STAGE change. -/
theorem wit_OnlyTheNamedWritersChangeState_bytes :
    (∃ t, exec .sEncode (stream 0#2 .complete [0x01#8, 0x00#8, 0x00#8] []) = .next t ∧
      decide (memRead Config.chip t 0 ≠
        memRead Config.chip (stream 0#2 .complete [0x01#8, 0x00#8, 0x00#8] []) 0) = true) ∧
    (∃ t, exec .sPush { State.reset with opa := 1#32, stage := [(0, 0x05#8)] } = .next t ∧
      decide (stageRead Config.chip t 0 ≠
        stageRead Config.chip { State.reset with opa := 1#32, stage := [(0, 0x05#8)] } 0) = true) :=
  ⟨exists_of_after (by decide), exists_of_after (by decide)⟩

/-- StatusesFixTheUnnamedResults: an error, a CRC error, a sentinel and BOOL. -/
theorem wit_StatusesFixTheUnnamedResults :
    (∃ t, exec .sEncode State.reset = .next t ∧ decide (t.scode = .errState) = true) ∧
    (∃ t, exec .hdrDec (ops 0x00FE003C#32 0#32) = .next t ∧ decide (t.scode = .errCrc) = true) ∧
    (∃ t, exec .valDec16 (ops 0x0000C0ED#32 0#32) = .next t ∧ decide (t.scode = .sentinel) = true) ∧
    (∃ t, exec .crcChk (ops 0x00FE003D#32 0#32) = .next t ∧ t.boolFlag = true) :=
  ⟨exists_of_after (by decide), exists_of_after (by decide), exists_of_after (by decide),
    exists_of_after (by decide)⟩

theorem wit_EachCommandLeavesOnlyItsStatuses :
    ∃ t, exec .sSetdata State.reset = .next t ∧ decide (t.scode = .errLength) = true :=
  exists_of_after (by decide)

theorem wit_PureCommandsDependOnOperandsOnly :
    isPure .hdrDec = true ∧ (stream 0#2 .complete [1#8, 2#8, 3#8] []).opa = State.reset.opa ∧
    (stream 0#2 .complete [1#8, 2#8, 3#8] []).opb = State.reset.opb := by decide

theorem wit_PureCommandsTouchOnlyTheResults :
    isPure .valEnc32 = true ∧ (∃ t, exec .valEnc32 (ops 5384#32 2#32) = .next t ∧ (t.rexp == 2#32) = true) :=
  ⟨by decide, exists_of_after (by decide)⟩

theorem wit_NonStoringStreamCommandsKeepAllBytes :
    (∃ t, exec .sReadt (stream 0#2 .complete [1#8, 2#8, 3#8] []) = .next t ∧ (t.res0 == 0x010203#32) = true) ∧
    (∃ t, exec .sRead (stream 0#2 .complete [1#8, 2#8, 3#8] []) = .next t ∧ (t.res0 == 1#32) = true) :=
  ⟨exists_of_after (by decide), exists_of_after (by decide)⟩

/-- ValueRoundTripHoldsExactlyOnD: the four ends of D, and values just outside each. -/
theorem wit_ValueRoundTripHoldsExactlyOnD :
    inD (-33554432) ∧ inD 32891135 ∧ inD 33554432 ∧ inD 100663295 ∧
    ¬ inD (-33554433) ∧ ¬ inD 32891136 ∧ ¬ inD 33554431 ∧ ¬ inD 100663296 ∧
    (ops 0xFE000000#32 0x10#32).opa = BitVec.ofInt 32 (-33554432) ∧
    BitVec.ofNat 8 (ops 0xFE000000#32 0x10#32).opb.toNat = BitVec.ofInt 8 16 ∧
    BitVec.ofNat 8 (ops 0xFE000000#32 0xF1#32).opb.toNat = BitVec.ofInt 8 (-15) := by
  unfold inD
  exact ⟨by omega, by omega, by omega, by omega, by omega, by omega, by omega, by omega, by decide, by decide, by decide⟩

/-- ValueRoundTripHoldsExactlyOnD, its third clause. -/
theorem wit_ValueRoundTripHoldsExactlyOnD_decode :
    ∃ t, exec .valDec32 (ops 0xF8F51FFF#32 0#32) = .next t ∧
      (decide (t.scode = .ok) && t.res0 == 0x01F5E0FF#32 && t.rexp == 0xFFFFFFF1#32) = true :=
  exists_of_after (by decide)

theorem wit_HeaderRoundTripsForEveryOperand :
    ∃ t, exec .hdrEnc (ops 0x4301#32 0#32) = .next t ∧ decide ((ops 0x00FE34B1#32 0#32).opa = t.res0) = true :=
  exists_of_after (by decide)

/-- EncodedRawHeaderIsTheHdrEncTriplet: the raw header [01 34 00] and OPA = 0x4301 (P3). -/
theorem wit_EncodedRawHeaderIsTheHdrEncTriplet :
    (stream 0#2 .complete [0x01#8, 0x34#8, 0x00#8] []).astate = .complete ∧
    (stream 0#2 .complete [0x01#8, 0x34#8, 0x00#8] []).len.toNat ≤ Config.chip.cap ∧
    memRead Config.chip (stream 0#2 .complete [0x01#8, 0x34#8, 0x00#8] []) 0 = some 0x01#8 ∧
    memRead Config.chip (stream 0#2 .complete [0x01#8, 0x34#8, 0x00#8] []) 1 = some 0x34#8 ∧
    bitsAt 0x4301#32 0 8 = (0x01#8).toNat ∧
    (0x34#8).toNat = bitsAt 0x4301#32 15 1 + bitsAt 0x4301#32 13 2 * 2 + bitsAt 0x4301#32 12 1 * 8 +
      bitsAt 0x4301#32 8 4 * 16 ∧
    ∃ h, exec .hdrEnc (ops 0x4301#32 0#32) = .next h ∧ (h.res0 == 0x00FE34B1#32) = true :=
  ⟨rfl, le_trans (by decide) Laws.chip_cap.1, by decide, by decide, by decide, by decide,
    exists_of_after (by decide)⟩

/-- A number of bytes as the chip's LEN and SLEN hold it. -/
theorem half_cap : (BitVec.ofNat 16 Config.chip.cap).toNat = Config.chip.cap := by
  have := Laws.chip_cap
  simp only [BitVec.toNat_ofNat]
  omega

/-- PushStagesOneByte: STAGE with room, and STAGE full. -/
theorem wit_PushStagesOneByte :
    State.reset.slen.toNat < Config.chip.cap ∧
    { State.reset with slen := BitVec.ofNat 16 Config.chip.cap }.slen.toNat = Config.chip.cap :=
  ⟨lt_of_lt_of_le (by decide) Laws.chip_cap.1, half_cap⟩

/-- A state whose STAGE starts with a good triplet. -/
theorem staged_ok {s : State} {a b c : Byte} (h : s.stage = bytes [a, b, c]) (hc : crc8 a b = c) :
    StagedTripletOk Config.chip s 0 := by
  have := Laws.chip_cap.1
  subst hc
  refine ⟨a, b, ?_, ?_, ?_⟩ <;> simp only [stageRead] <;> rw [if_pos (by omega), h] <;> rfl

/-- The chip has a code of class Variable. -/
theorem wit_variable_code : ∃ l, Config.chip.lencode l = .unbounded := Laws.lencode_surjective Config.chip .unbounded

/-- AppendReportsErrorsInOrder and SetdataOverwritesAFreshStream: their premise at SLEN = 0 and at SLEN = CAP, and
their clauses on the staged count. -/
theorem wit_staged_counts :
    State.reset.slen.toNat ≤ Config.chip.cap ∧
    { State.reset with slen := BitVec.ofNat 16 Config.chip.cap }.slen.toNat ≤ Config.chip.cap ∧
    (stream 0#2 .complete [] []).astate = .complete ∧ (stream 0#2 .invalid [] []).astate = .invalid ∧
    (stream 0#2 .empty [] [0#8]).slen.toNat % 3 ≠ 0 ∧
    expectedTriplets (clsOf Config.chip State.reset) = some 1 ∧ State.reset.slen.toNat ≠ 3 * 1 :=
  ⟨Nat.zero_le _, le_of_eq half_cap, rfl, rfl, by decide, rfl, by decide⟩

/-- AppendReportsErrorsInOrder, ERR_CRC at the first and at a later staged triplet. -/
theorem wit_AppendReportsErrorsInOrder_crc :
    stageRead Config.chip (stream 0#2 .empty [] [0xFE#8, 0x00#8, 0x3C#8]) 2 = some 0x3C#8 ∧
    crc8 0xFE#8 0x00#8 ≠ 0x3C#8 ∧
    StagedTripletOk Config.chip (stream 0#2 .empty [] [0xFE#8, 0x00#8, 0x3D#8, 0x73#8, 0x1C#8, 0x00#8]) 0 ∧
    stageRead Config.chip (stream 0#2 .empty [] [0xFE#8, 0x00#8, 0x3D#8, 0x73#8, 0x1C#8, 0x00#8]) 5 = some 0x00#8 ∧
    crc8 0x73#8 0x1C#8 ≠ 0x00#8 :=
  ⟨by decide, by decide,
    ⟨0xFE#8, 0x00#8, by decide, by decide, by decide⟩, by decide, by decide⟩

/-- AppendReportsErrorsInOrder, ERR_LENGTH: two good triplets staged for Byte3. -/
theorem wit_AppendReportsErrorsInOrder_length :
    (∀ j < 2, StagedTripletOk Config.chip (stream 0#2 .empty [] [0x00#8, 0x00#8, 0xFF#8, 0x00#8, 0x00#8, 0xFF#8]) j) ∧
    expectedTriplets (clsOf Config.chip (stream 0#2 .empty [] [])) = some 1 ∧ 1 < (0 + 6) / 3 := by
  refine ⟨fun j hj => ?_, rfl, by decide⟩
  obtain rfl | rfl : j = 0 ∨ j = 1 := by omega
  · exact ⟨0x00#8, 0x00#8, by decide, by decide, by decide⟩
  · exact ⟨0x00#8, 0x00#8, by decide, by decide, by decide⟩

/-- AppendReportsErrorsInOrder, ERR_CAPACITY: a full Variable stream and one more good triplet. -/
theorem wit_AppendReportsErrorsInOrder_capacity :
    ∃ s : State, s.astate = .partly ∧ s.slen.toNat = 3 ∧ (∀ j < 1, StagedTripletOk Config.chip s j) ∧
      expectedTriplets (clsOf Config.chip s) = none ∧ Config.chip.cap < s.len.toNat + 3 := by
  obtain ⟨l, hl⟩ := wit_variable_code
  refine ⟨{ stream l .partly [] [0x00#8, 0x00#8, 0xFF#8] with len := BitVec.ofNat 16 Config.chip.cap },
    rfl, rfl, fun j hj => ?_, ?_, ?_⟩
  · obtain rfl : j = 0 := by omega
    exact staged_ok rfl (by decide)
  · exact (congrArg expectedTriplets hl).trans rfl
  · show Config.chip.cap < (BitVec.ofNat 16 Config.chip.cap).toNat + 3
    rw [half_cap]; omega

/-- AppendCommitsTheStagedTriplets, where the stream fills its class. -/
theorem wit_AppendCommitsTheStagedTriplets :
    (∀ j < 1, StagedTripletOk Config.chip (stream 0#2 .empty [] [0xFE#8, 0x00#8, 0x3D#8]) j) ∧
    (∀ e, expectedTriplets (clsOf Config.chip (stream 0#2 .empty [] [0xFE#8, 0x00#8, 0x3D#8])) = some e →
      (0 + 3) / 3 ≤ e) ∧
    0 + 3 ≤ Config.chip.cap := by
  refine ⟨fun j hj => ?_, fun e he => ?_, le_trans (by decide) Laws.chip_cap.1⟩
  · obtain rfl : j = 0 := by omega
    exact ⟨0xFE#8, 0x00#8, by decide, by decide, by decide⟩
  · have h1 : some 1 = some e := he
    cases h1; decide

/-- AppendCommitsTheStagedTriplets, on a Variable stream, which stays Partial. -/
theorem wit_AppendCommitsTheStagedTriplets_variable :
    ∃ s : State, s.astate = .partly ∧ s.len.toNat = 3 ∧ s.slen.toNat = 3 ∧ StagedTripletOk Config.chip s 0 ∧
      expectedTriplets (clsOf Config.chip s) = none ∧ s.len.toNat + s.slen.toNat ≤ Config.chip.cap := by
  obtain ⟨l, hl⟩ := wit_variable_code
  refine ⟨stream l .partly [0xFE#8, 0x07#8, 0x28#8] [0x73#8, 0x1C#8, 0x36#8], rfl, rfl, rfl,
    staged_ok rfl (by decide), ?_, ?_⟩
  · exact (congrArg expectedTriplets hl).trans rfl
  · exact le_trans (by decide : 6 ≤ 9) Laws.chip_cap.1

/-- SetdataOverwritesAFreshStream: the commits of a fixed class and of Variable, and Variable with nothing staged. -/
theorem wit_SetdataOverwritesAFreshStream :
    expectedTriplets (clsOf Config.chip (stream 0#2 .empty [] [1#8, 0#8, 0#8])) =
      some ((stream 0#2 .empty [] [1#8, 0#8, 0#8]).slen.toNat / 3) ∧
    (∃ s : State, s.astate = .empty ∧ expectedTriplets (clsOf Config.chip s) = none ∧ s.slen.toNat = 0) ∧
    (∃ s : State, s.astate = .empty ∧ expectedTriplets (clsOf Config.chip s) = none ∧ s.slen.toNat = 3) := by
  obtain ⟨l, hl⟩ := wit_variable_code
  exact ⟨by decide, ⟨stream l .empty [] [], rfl, (congrArg expectedTriplets hl).trans rfl, rfl⟩,
    ⟨stream l .empty [] [1#8, 0#8, 0#8], rfl, (congrArg expectedTriplets hl).trans rfl, rfl⟩⟩

/-- EncodePutsEveryTripletInWireForm and SecondEncodeRestoresFirstBytes: a Complete stream that fills BUF, and one that
is not Complete. -/
theorem wit_EncodePutsEveryTripletInWireForm :
    { stream 0#2 .complete [] [] with len := BitVec.ofNat 16 Config.chip.cap }.len.toNat ≤ Config.chip.cap ∧
    (stream 0#2 .complete [1#8, 0#8, 0#8] []).len.toNat / 3 = 1 ∧ State.reset.astate ≠ .complete :=
  ⟨le_of_eq half_cap, by decide, by decide⟩

/-- VerifyDecidesTheLength: its three cases in a fixed class, and the third byte of a Variable stream. -/
theorem wit_VerifyDecidesTheLength :
    (stream 0#2 .invalid [] []).astate = .invalid ∧
    expectedTriplets (clsOf Config.chip (stream 0#2 .complete [1#8, 0#8, 0#8] [])) = some 1 ∧
    (stream 0#2 .complete [1#8, 0#8, 0#8] []).len.toNat = 3 * 1 ∧ State.reset.len.toNat ≠ 3 * 1 ∧
    (∃ s : State, s.astate = .partly ∧ expectedTriplets (clsOf Config.chip s) = none ∧ s.len.toNat = 3) ∧
    (∃ s : State, s.astate = .empty ∧ expectedTriplets (clsOf Config.chip s) = none ∧ s.len.toNat = 0) := by
  obtain ⟨l, hl⟩ := wit_variable_code
  exact ⟨rfl, rfl, by decide, by decide,
    ⟨stream l .partly [1#8, 7#8, 0#8] [], rfl, (congrArg expectedTriplets hl).trans rfl, rfl⟩,
    ⟨stream l .empty [] [], rfl, (congrArg expectedTriplets hl).trans rfl, rfl⟩⟩

/-- ReadGivesOneStreamByte at LEN and at LEN - 1; ReadtGivesOneStreamTriplet at the last triplet and after it. -/
theorem wit_ReadsAtTheEndOfTheStream :
    (stream 0#2 .complete [1#8, 0#8, 0#8] []).len.toNat ≤ bitsAt 3#32 0 16 ∧
    bitsAt 2#32 0 16 < (stream 0#2 .complete [1#8, 0#8, 0#8] []).len.toNat ∧
    (stream 0#2 .complete [1#8, 0#8, 0#8] []).len.toNat < 3 * bitsAt 1#32 0 16 + 3 ∧
    3 * bitsAt 0#32 0 16 + 3 ≤ (stream 0#2 .complete [1#8, 0#8, 0#8] []).len.toNat ∧
    (stream 0#2 .complete [1#8, 0#8, 0#8] []).len.toNat ≤ Config.chip.cap :=
  ⟨by decide, by decide, by decide, by decide, le_trans (by decide) Laws.chip_cap.1⟩

theorem wit_StagingIsConsumedOnEveryOutcome :
    (∃ t, exec .sAppend (stream 0#2 .empty [] [0#8]) = .next t ∧ decide (t.scode = .errAlign) = true) ∧
    (∃ t, exec .sSetdata (stream 0#2 .empty [] [1#8, 0#8, 0#8]) = .next t ∧ decide (t.scode = .ok) = true) :=
  ⟨exists_of_after (by decide), exists_of_after (by decide)⟩

/-- A reachable state that is Complete, with bytes in BUF and in STAGE, is safe: AssemblerFollowsTheTransitionTable,
EveryStepKeepsSafe, NoStepFromASafeStateStops and StepsHideTheUnobservableBytes speak of more than the reset state. -/
theorem wit_safe_complete (inputs : List Input) :
    SafeState Config.chip { stream 0#2 .complete [0xFE#8, 0x00#8, 0x3D#8] [0x05#8] with inputs := inputs } where
  bufWf := (by decide : Memory.wf (bytes [0xFE#8, 0x00#8, 0x3D#8]))
  stageWf := (by decide : Memory.wf (bytes [0x05#8]))
  bufInside := by
    have := Laws.chip_cap.1
    intro c hc
    have h3 : c ∈ ([(0, 0xFE#8), (1, 0x00#8), (2, 0x3D#8)] : Memory) := hc
    simp only [List.mem_cons, List.not_mem_nil, or_false] at h3
    obtain rfl | rfl | rfl := h3 <;> omega
  stageInside := by
    have := Laws.chip_cap.1
    intro c hc
    have h1 : c ∈ ([(0, 0x05#8)] : Memory) := hc
    simp only [List.mem_cons, List.not_mem_nil, or_false] at h1
    subst h1; omega
  lenTriplets := (by decide : (3#16).toNat % 3 = 0)
  lenCap := le_trans (by decide : 3 ≤ 9) Laws.chip_cap.1
  slenCap := le_trans (by decide : 1 ≤ 9) Laws.chip_cap.1
  bufWritten := by
    intro i hi
    have h3 : i < 3 := hi
    obtain rfl | rfl | rfl : i = 0 ∨ i = 1 ∨ i = 2 := by omega
    all_goals rfl
  stageWritten := by
    intro i hi
    have h1 : i < 1 := hi
    obtain rfl : i = 0 := by omega
    rfl
  emptyLen := fun h => by cases h
  partlyLen := fun h => by cases h
  completeFixedLen := by
    intro e _ he
    have h1 : some 1 = some e := he
    cases h1; rfl
  completeVariableLen := by
    intro _ h
    have h1 : some 1 = (none : Option Nat) := h
    cases h1

/-- An Empty stream of class Byte3 with staged bytes inside CAP is safe. -/
theorem safe_staged {bs : List Byte} (hl : bs.length ≤ 9) (hwf : Memory.wf (bytes bs))
    (hin : ∀ c ∈ bytes bs, c.1 < 9) (hw : ∀ i < bs.length, (Memory.byteAt (bytes bs) i).isSome) :
    SafeState Config.chip (stream 0#2 .empty [] bs) := by
  have := Laws.chip_cap.1
  have hs : (stream 0#2 .empty [] bs).slen.toNat = bs.length := by
    show (BitVec.ofNat 16 bs.length).toNat = _
    simp only [BitVec.toNat_ofNat]
    omega
  exact {
    bufWf := List.Pairwise.nil
    stageWf := hwf
    bufInside := fun c hc => absurd hc List.not_mem_nil
    stageInside := fun c hc => lt_of_lt_of_le (hin c hc) Laws.chip_cap.1
    lenTriplets := (by decide : (0#16).toNat % 3 = 0)
    lenCap := Nat.zero_le _
    slenCap := by omega
    bufWritten := fun i hi => absurd hi (Nat.not_lt_zero i)
    stageWritten := fun i hi => hw i (by omega)
    emptyLen := fun _ => rfl
    partlyLen := fun h => by cases h
    completeFixedLen := fun e h => by cases h
    completeVariableLen := fun h => by cases h }

/-- AssemblerFollowsTheTransitionTable, S.SETDATA in Empty: from safe states, a length that fits and one that does not. -/
theorem wit_AssemblerFollowsTheTransitionTable_setdata :
    SafeState Config.chip (stream 0#2 .empty [] [0x01#8, 0x00#8, 0x00#8]) ∧
    (∃ t, exec .sSetdata (stream 0#2 .empty [] [0x01#8, 0x00#8, 0x00#8]) = .next t ∧
      decide (t.astate = .complete ∧ t.scode = .ok) = true) ∧
    SafeState Config.chip (stream 0#2 .empty [] [0x01#8, 0x00#8]) ∧
    (∃ t, exec .sSetdata (stream 0#2 .empty [] [0x01#8, 0x00#8]) = .next t ∧
      decide (t.astate = .invalid ∧ t.scode = .errLength) = true) :=
  ⟨safe_staged (by decide) (by decide) (by decide) (by decide), exists_of_after (by decide),
    safe_staged (by decide) (by decide) (by decide) (by decide), exists_of_after (by decide)⟩

/-- AssemblerFollowsTheTransitionTable, S.APPEND in Empty: from safe states, all checks passed. -/
theorem wit_AssemblerFollowsTheTransitionTable_append :
    SafeState Config.chip (stream 0#2 .empty [] [0xFE#8, 0x00#8, 0x3D#8]) ∧
    (∃ t, exec .sAppend (stream 0#2 .empty [] [0xFE#8, 0x00#8, 0x3D#8]) = .next t ∧
      decide (t.astate = .complete ∧ t.scode = .ok) = true) :=
  ⟨safe_staged (by decide) (by decide) (by decide) (by decide), exists_of_after (by decide)⟩

/-- AssemblerFollowsTheTransitionTable, S.APPEND in Empty: from safe states, a bad length, a bad CRC and too many
triplets. ERR_CAPACITY has its witness in wit_AppendReportsErrorsInOrder_capacity. -/
theorem wit_AssemblerFollowsTheTransitionTable_append_errors :
    SafeState Config.chip (stream 0#2 .empty [] [0xFE#8]) ∧
    (∃ t, exec .sAppend (stream 0#2 .empty [] [0xFE#8]) = .next t ∧
      decide (t.astate = .invalid ∧ t.scode = .errAlign) = true) ∧
    SafeState Config.chip (stream 0#2 .empty [] [0xFE#8, 0x00#8, 0x3C#8]) ∧
    (∃ t, exec .sAppend (stream 0#2 .empty [] [0xFE#8, 0x00#8, 0x3C#8]) = .next t ∧
      decide (t.astate = .invalid ∧ t.scode = .errCrc) = true) ∧
    SafeState Config.chip (stream 0#2 .empty [] [0x00#8, 0x00#8, 0xFF#8, 0x00#8, 0x00#8, 0xFF#8]) ∧
    (∃ t, exec .sAppend (stream 0#2 .empty [] [0x00#8, 0x00#8, 0xFF#8, 0x00#8, 0x00#8, 0xFF#8]) = .next t ∧
      decide (t.astate = .invalid ∧ t.scode = .errLength) = true) :=
  ⟨safe_staged (by decide) (by decide) (by decide) (by decide), exists_of_after (by decide),
    safe_staged (by decide) (by decide) (by decide) (by decide), exists_of_after (by decide),
    safe_staged (by decide) (by decide) (by decide) (by decide), exists_of_after (by decide)⟩

/-- EveryStepKeepsSafe and AssemblerFollowsTheTransitionTable: a step from the state above. -/
theorem wit_EveryStepKeepsSafe :
    ∃ t, step { stream 0#2 .complete [0xFE#8, 0x00#8, 0x3D#8] [0x05#8] with inputs := [.write 0#4 0x34#32] } = .next t ∧
      decide (t.scode = .ok) = true :=
  exists_of_after (by decide)

/-- StepsHideTheUnobservableBytes: two states that differ in a byte above LEN. -/
theorem wit_StepsHideTheUnobservableBytes :
    SameVisible Config.chip State.reset { State.reset with buf := [(4, 0x07#8)] } where
  registers := rfl
  bufBytes := fun i hi => absurd hi (Nat.not_lt_zero i)
  stageBytes := fun i hi => absurd hi (Nat.not_lt_zero i)

/-- InitStartsAFreshStream and ResetEqualsInitWithZeroOperand: S.INIT on an Invalid stream, with OPA = 0. -/
theorem wit_InitStartsAFreshStream :
    (stream 0#2 .invalid [] []).astate = .invalid ∧ (stream 0#2 .invalid [] []).opa = 0#32 ∧
    (∃ t, exec .sInit (stream 0#2 .invalid [] []) = .next t ∧ decide (t.astate ≠ .invalid) = true) :=
  ⟨rfl, rfl, exists_of_after (by decide)⟩

/-- OnlyInitOrResetLeavesInvalid: S.INIT and an asserted reset both leave it. -/
theorem wit_OnlyInitOrResetLeavesInvalid :
    (∃ t, step { stream 0#2 .invalid [] [] with inputs := [.write 0#4 0x30#32] } = .next t ∧
      decide (t.astate ≠ .invalid) = true) ∧
    (∃ t, step { stream 0#2 .invalid [] [] with inputs := [.assertReset] } = .next t ∧
      decide (t.astate ≠ .invalid) = true) :=
  ⟨exists_of_after (by decide), exists_of_after (by decide)⟩

end Sys2Proof.Tests
end

section
/-! PROOFS. The statements of 00_scope.md: the parameters of R7, the primitives of R10 to R13, the step that performs
a command (R18, R81), and what a command leaves in the results by its status (R16, R17, R39, R210). -/

namespace Sys2Proof.Scope

open Sys2Proof.Machine Sys2Proof.Laws

/-! ### How a command ends -/

/-- The ways in which a command other than NOP records its results (R16, R17, R210). -/
inductive CommandEnd (i : Instr) : State → Prop where
  /-- OK, with ECODE 0 and with BOOL set by CRC.CHK and S.VERIFY alone (R17, R36, R39). -/
  | ok (s : State) (r : Results) (ecode_zero : r.ecode = 0#32)
      (bool_setters : r.boolFlag = true → i = .crcChk ∨ i = .sVerify) : CommandEnd i (s.record .ok r)
  /-- SENTINEL, with ECODE alone (R122, R127). -/
  | sentinel (s : State) (code : Word) : CommandEnd i (s.record .sentinel { ecode := code })
  /-- ERR_CRC, with the computed and the received CRC and the index of the triplet (R153, R174). -/
  | errCrc (s : State) (computed received triplet : Word) :
      CommandEnd i (s.record .errCrc { res0 := computed, res1 := received, ecode := triplet })
  /-- A status that names no result (R16). -/
  | bare (s : State) (c : StatusCode) : CommandEnd i (s.record c {})

/-- A decode's value names no ECODE and no BOOL; its error code is ECODE alone (R120). -/
theorem commandEnd_finishDecoded (i : Instr) (d : Decoded) (s : State) : CommandEnd i (finishDecoded d s) := by
  rcases finishDecoded_cases d s with ⟨S, e, -, h⟩ | ⟨code, -, h⟩ <;> rw [h]
  · exact .ok _ _ rfl nofun
  · exact .sentinel _ _

theorem commandEnd_valEnc32 {i : Instr} {s t : State} (h : execValEnc32 s = .next t) : CommandEnd i t := by
  rcases execValEnc32_cases s with ⟨-, he⟩ | ⟨w, -, he⟩ <;> obtain rfl := Host.Outcome.next.inj (he.symm.trans h)
  · exact .bare _ _
  · exact .ok _ _ rfl nofun

theorem commandEnd_hdrDec {i : Instr} {s t : State} (h : execHdrDec s = .next t) : CommandEnd i t := by
  rcases execHdrDec_cases s with ⟨-, he⟩ | ⟨-, he⟩ <;> obtain rfl := Host.Outcome.next.inj (he.symm.trans h)
  · exact .errCrc _ _ _ _
  · exact .ok _ _ rfl nofun

theorem commandEnd_push {i : Instr} {p : Params} {s t : State} (h : pushWith p s = .next t) : CommandEnd i t := by
  rcases pushWith_cases h with ⟨-, rfl⟩ | ⟨-, -, rfl⟩
  · exact .bare _ _
  · exact .bare _ _

theorem commandEnd_append {i : Instr} {p : Params} {s t : State} (h : appendWith p s = .next t) :
    CommandEnd i t := by
  rcases appendWith_cases h with ⟨-, rfl⟩ | ⟨-, -, rfl⟩ | ⟨-, -, -, bs, -, hchecked⟩
  · exact .bare _ _
  · exact .bare _ _
  · rcases hchecked with
      ⟨j, c, x, -, rfl⟩ | ⟨-, ⟨-, rfl⟩ | ⟨-, -, rfl⟩ | ⟨-, -, s1, -, rfl⟩⟩
    · exact .errCrc _ _ _ _
    · exact .bare _ _
    · exact .bare _ _
    · exact .bare _ _

theorem commandEnd_setdata {i : Instr} {p : Params} {s t : State} (h : setdataWith p s = .next t) :
    CommandEnd i t := by
  rcases setdataWith_cases h with ⟨-, rfl⟩ | ⟨-, -, rfl⟩ | ⟨-, -, -, rfl⟩ | ⟨-, -, -, -, bs, s1, -, -, rfl⟩
  · exact .bare _ _
  · exact .bare _ _
  · exact .bare _ _
  · exact .bare _ _

theorem commandEnd_encode {i : Instr} {p : Params} {s t : State} (h : encodeWith p s = .next t) :
    CommandEnd i t := by
  rcases encodeWith_cases h with ⟨-, rfl⟩ | ⟨-, s1, -, rfl⟩
  · exact .bare _ _
  · exact .bare _ _

/-- Of the stream commands S.VERIFY alone sets BOOL (R39, R186). -/
theorem commandEnd_verify (p : Params) (s : State) : CommandEnd .sVerify (verifyWith p s) := by
  rcases verifyWith_cases p s with ⟨-, h⟩ | ⟨-, -, h⟩ | ⟨-, -, h⟩ <;> rw [h]
  · exact .bare _ _
  · exact .ok _ _ rfl fun _ => .inr rfl
  · exact .bare _ _

theorem commandEnd_read {i : Instr} {p : Params} {s t : State} (h : readWith p s = .next t) : CommandEnd i t := by
  rcases readWith_cases h with ⟨-, rfl⟩ | ⟨-, b, -, rfl⟩
  · exact .bare _ _
  · exact .ok _ _ rfl nofun

theorem commandEnd_readt {i : Instr} {p : Params} {s t : State} (h : readtWith p s = .next t) :
    CommandEnd i t := by
  rcases readtWith_cases h with ⟨-, rfl⟩ | ⟨-, t0, t1, t2, -, -, -, rfl⟩
  · exact .bare _ _
  · exact .ok _ _ rfl nofun

/-- Every command but NOP ends in one of the ways above. -/
theorem commandEnd_of_exec {i : Instr} {s t : State} (hi : i ≠ .nop) (h : exec i s = .next t) :
    CommandEnd i t := by
  cases i with
  | nop => exact absurd rfl hi
  | crcGen => obtain rfl := Host.Outcome.next.inj h; exact .ok _ _ rfl nofun
  | crcChk => obtain rfl := Host.Outcome.next.inj h; exact .ok _ _ rfl fun _ => .inl rfl
  | valDec16 => obtain rfl := Host.Outcome.next.inj h; exact commandEnd_finishDecoded _ _ _
  | valDec32 => obtain rfl := Host.Outcome.next.inj h; exact commandEnd_finishDecoded _ _ _
  | valEnc32 => exact commandEnd_valEnc32 h
  | hdrEnc => obtain rfl := Host.Outcome.next.inj h; exact .ok _ _ rfl nofun
  | hdrDec => exact commandEnd_hdrDec h
  | sInit => obtain rfl := Host.Outcome.next.inj h; exact .bare _ _
  | sPush => exact commandEnd_push h
  | sAppend => exact commandEnd_append h
  | sSetdata => exact commandEnd_setdata h
  | sEncode => exact commandEnd_encode h
  | sVerify => obtain rfl := Host.Outcome.next.inj h; exact commandEnd_verify _ _
  | sRead => exact commandEnd_read h
  | sReadt => exact commandEnd_readt h

/-- Settles O20, by the way in which the command ends. -/
theorem statusesFixTheUnnamedResults : Obligations.StatusesFixTheUnnamedResults := by
  intro i s t hi h
  cases commandEnd_of_exec hi h with
  | ok s' r hecode hbool => simpa [hecode] using hbool
  | sentinel s' code => simp
  | errCrc s' computed received triplet => simp
  | bare s' c => simp

/-! ### The parameters of R7 -/

/-- Settles O1, from the laws of the parameters. -/
theorem parametersAreWithinTheirBounds : Obligations.ParametersAreWithinTheirBounds := by
  have hvalid := chip_valid
  simp only [Params.valid, Bool.and_eq_true, decide_eq_true_eq] at hvalid
  obtain ⟨hlow, hhigh⟩ := hvalid
  exact ⟨hlow, hhigh, rfl, lencode_zero _, lencode_injective _, lencode_surjective _⟩

/-! ### The primitives of R10 to R13 -/

/-- R13 in integer arithmetic. -/
theorem toNat_not8 (x : Byte) : (not8 x).toNat = 255 - x.toNat := by
  simp only [not8]
  bv_omega

/-- R13 as a bit operation. -/
theorem not8_eq_complement (x : Byte) : not8 x = ~~~x :=
  BitVec.eq_of_toNat_eq (by rw [toNat_not8, BitVec.toNat_not])

/-- Shifting one field above another of the same width joins their numbers. -/
theorem toNat_shiftLeft_or {w : Nat} (hi lo : BitVec w) :
    ((hi.setWidth (w + w) <<< w) ||| lo.setWidth (w + w)).toNat = hi.toNat * 2 ^ w + lo.toNat := by
  have hjoin : (hi.setWidth (w + w) <<< w) ||| lo.setWidth (w + w) = hi ++ lo := by
    rw [BitVec.append_def, BitVec.shiftLeftZeroExtend_eq, BitVec.setWidth'_eq]
  rw [hjoin, BitVec.toNat_append, ← Nat.shiftLeft_add_eq_or_of_lt lo.isLt, Nat.shiftLeft_eq]

/-- Settles O2: conv16 and conv32 both join two fields. -/
theorem pairsAreBigEndianWithFirstByteComplemented : Obligations.PairsAreBigEndianWithFirstByteComplemented := by
  refine ⟨fun a b => ?_, fun hi lo => toNat_shiftLeft_or hi lo⟩
  rw [← toNat_not8]
  exact toNat_shiftLeft_or (not8 a) b

/-- to_s32 is the library's signed reading (R12). -/
theorem toS32_eq_toInt (u : Word) : toS32 u = u.toInt := by
  rw [BitVec.toInt_eq_msb_cond, BitVec.msb_eq_getLsbD_last]
  rfl

/-- Settles O3, from the library's facts about the signed reading. -/
theorem signedReinterpretationRoundTrips : Obligations.SignedReinterpretationRoundTrips := by
  refine ⟨fun u => ?_, fun v => ?_, fun u => ?_⟩
  · rw [toS32_eq_toInt, BitVec.toInt_eq_toNat_cond]
    split <;> split <;> omega
  · rw [toU32, crop32, BitVec.toNat_ofInt]
    omega
  · rw [toS32_eq_toInt]
    exact BitVec.ofInt_toInt

/-- Settles O4, from the complement as a bit operation. -/
theorem onesComplementIsItsOwnInverse : Obligations.OnesComplementIsItsOwnInverse := by
  intro x
  refine ⟨toNat_not8 x, ?_, ?_⟩
  · rw [not8_eq_complement, ← BitVec.xor_allOnes]
    rfl
  · rw [not8_eq_complement, not8_eq_complement, BitVec.not_not]

/-! ### The step that performs a command -/

/-- R30, R62: a write of CMD with reset released performs the word in the same step. -/
theorem step_writeCmd {s : State} {w : Word} {rest : List Input} (hreset : s.resetAsserted = false)
    (hin : s.inputs = .write 0#4 w :: rest) : step s = runCommand w { s with inputs := rest } := by
  have hcmd : regOfIndex 0#4 = .cmd := rfl
  simp [step, nextInput, hin, takeInput, hreset, hcmd]

/-- R81: a word that decodes performs its command. -/
theorem runCommand_of_decode {w : Word} {i : Instr} (h : decode w = .ok i) (s : State) :
    runCommand w s = exec i s := by
  simp [runCommand, h]

/-- Settles O12: the write of CMD performs the word, and the word is the command. -/
theorem stepRunsTheDecodedCommand : Obligations.StepRunsTheDecodedCommand := by
  intro s w rest i hreset hin hdecode _
  rw [step_writeCmd hreset hin, runCommand_of_decode hdecode]

end Sys2Proof.Scope
end

section
/-! PROOFS. The statements of 10_state.md about single commands and accesses: what each command may write (R31, R32,
R37, R60), STATUS (R37), the step without an access (R30), and how Invalid is left (R40). -/

namespace Sys2Proof.BlockState

open Sys2Proof.Machine Sys2Proof.Laws Sys2Proof.Safety

/-! ### Rules of the state: which reads see which updates -/

section Reads

variable (p : Params) (s : State) (i : Nat)

@[simp] theorem memRead_record (c : StatusCode) (r : Results) : memRead p (s.record c r) i = memRead p s i := rfl

@[simp] theorem memRead_setStream (a : AState) (l k : Half) : memRead p (s.setStream a l k) i = memRead p s i := rfl

@[simp] theorem memRead_setStage (m : Memory) : memRead p (s.setStage m) i = memRead p s i := rfl

@[simp] theorem stageRead_record (c : StatusCode) (r : Results) : stageRead p (s.record c r) i = stageRead p s i := rfl

@[simp] theorem stageRead_setStream (a : AState) (l k : Half) : stageRead p (s.setStream a l k) i = stageRead p s i :=
  rfl

@[simp] theorem stageRead_setBuf (m : Memory) : stageRead p (s.setBuf m) i = stageRead p s i := rfl

end Reads

/-! ### What each command may write -/

/-- What each command may write, by the writer columns of R31, R37 and R60; all else is as in `s`. -/
inductive Writes (s : State) : Instr → State → Prop where
  | nothing : Writes s .nop s
  | results {i : Instr} (hi : isPure i = true ∨ i = .sRead ∨ i = .sReadt) (c : StatusCode) (r : Results) :
      Writes s i (s.record c r)
  | init : Writes s .sInit (initStream s)
  | staged (m : Memory) (k : Half) (c : StatusCode) (r : Results) :
      Writes s .sPush (((s.setStage m).setStream s.astate s.len k).record c r)
  | stream {i : Instr} (hi : i = .sAppend ∨ i = .sSetdata) (m : Memory) (a : AState) (l k : Half) (c : StatusCode)
      (r : Results) : Writes s i (((s.setBuf m).setStream a l k).record c r)
  | bytes (m : Memory) (c : StatusCode) (r : Results) : Writes s .sEncode ((s.setBuf m).record c r)
  | verdict (a : AState) (c : StatusCode) (r : Results) : Writes s .sVerify ((s.setStream a s.len s.slen).record c r)

variable {p : Params} {i : Instr} {s t : State}

theorem writes_push (h : pushWith p s = .next t) : Writes s .sPush t := by
  rcases pushWith_cases h with ⟨-, rfl⟩ | ⟨-, -, rfl⟩
  · exact .staged s.stage s.slen _ _
  · exact .staged _ _ _ _

/-- A stretch written to BUF replaces BUF alone, so a commit is a stream update. -/
theorem writes_commit (hi : i = .sAppend ∨ i = .sSetdata) {j : Nat} {bs : List Byte} {s1 : State}
    (hw : memWriteList p j bs s = some s1) (a : AState) (l k : Half) (c : StatusCode) (r : Results) :
    Writes s i ((s1.setStream a l k).record c r) := by
  rw [(memWriteList_spec hw).1]
  exact .stream hi _ _ _ _ _ _

theorem writes_append (h : appendWith p s = .next t) : Writes s .sAppend t := by
  have hi : Instr.sAppend = .sAppend ∨ Instr.sAppend = .sSetdata := .inl rfl
  rcases appendWith_cases h with ⟨-, rfl⟩ | ⟨-, -, rfl⟩ | ⟨-, -, -, bs, -, hchecked⟩
  · exact .stream hi s.buf _ _ _ _ _
  · exact .stream hi s.buf _ _ _ _ _
  · rcases hchecked with ⟨j, c, x, -, rfl⟩ | ⟨-, ⟨-, rfl⟩ | ⟨-, -, rfl⟩ | ⟨-, -, s1, hw, rfl⟩⟩
    · exact .stream hi s.buf _ _ _ _ _
    · exact .stream hi s.buf _ _ _ _ _
    · exact .stream hi s.buf _ _ _ _ _
    · exact writes_commit hi hw _ _ _ _ _

theorem writes_setdata (h : setdataWith p s = .next t) : Writes s .sSetdata t := by
  have hi : Instr.sSetdata = .sAppend ∨ Instr.sSetdata = .sSetdata := .inr rfl
  rcases setdataWith_cases h with ⟨-, rfl⟩ | ⟨-, -, rfl⟩ | ⟨-, -, -, rfl⟩ | ⟨-, -, -, -, bs, s1, -, hw, rfl⟩
  · exact .stream hi s.buf _ _ _ _ _
  · exact .stream hi s.buf _ _ _ _ _
  · exact .stream hi s.buf _ _ _ _ _
  · exact writes_commit hi hw _ _ _ _ _

theorem writes_encode (h : encodeWith p s = .next t) : Writes s .sEncode t := by
  rcases encodeWith_cases h with ⟨-, rfl⟩ | ⟨-, s1, hs1, rfl⟩
  · exact .bytes s.buf _ _
  · rw [(encodeTriplets_spec hs1).1]
    exact .bytes _ _ _

theorem writes_verify (p : Params) (s : State) : Writes s .sVerify (verifyWith p s) := by
  rcases verifyWith_cases p s with ⟨-, h⟩ | ⟨-, -, h⟩ | ⟨-, -, h⟩ <;> rw [h]
  · exact .verdict s.astate _ _
  · exact .verdict _ _ _
  · exact .verdict _ _ _

theorem writes_read (h : readWith p s = .next t) : Writes s .sRead t := by
  rcases readWith_cases h with ⟨-, rfl⟩ | ⟨-, b, -, rfl⟩
  · exact .results (.inr (.inl rfl)) _ _
  · exact .results (.inr (.inl rfl)) _ _

theorem writes_readt (h : readtWith p s = .next t) : Writes s .sReadt t := by
  rcases readtWith_cases h with ⟨-, rfl⟩ | ⟨-, t0, t1, t2, -, -, -, rfl⟩
  · exact .results (.inr (.inr rfl)) _ _
  · exact .results (.inr (.inr rfl)) _ _

/-- No command writes more than its columns say. -/
theorem writes_of_exec (h : exec i s = .next t) : Writes s i t := by
  rcases exec_cases h with ⟨rfl, rfl⟩ | ⟨hpure, c, r, rfl⟩ | ⟨rfl, rfl⟩ | ⟨rfl, h⟩ | ⟨rfl, h⟩ | ⟨rfl, h⟩ | ⟨rfl, h⟩ |
    ⟨rfl, rfl⟩ | ⟨rfl, h⟩ | ⟨rfl, h⟩
  · exact .nothing
  · exact .results (.inl hpure) c r
  · exact .init
  · exact writes_push h
  · exact writes_append h
  · exact writes_setdata h
  · exact writes_encode h
  · exact writes_verify _ _
  · exact writes_read h
  · exact writes_readt h

/-- Settles O18: the operands, the reset input and the host's lists are in no command's writer columns. -/
theorem commandsNeverWriteOperands : Obligations.CommandsNeverWriteOperands := by
  intro i s t h
  cases writes_of_exec h <;> exact ⟨rfl, rfl, rfl, rfl, rfl⟩

/-- Settles O19, by the writer columns. -/
theorem onlyTheNamedWritersChangeState : Obligations.OnlyTheNamedWritersChangeState := by
  intro i s t h
  cases writes_of_exec h with
  | nothing => simp
  | results hi c r =>
    have hnop : i ≠ .nop := by rintro rfl; simp [isPure] at hi
    simp [hnop]
  | init => simpa [initStream, finish_eq] using ⟨memRead_congr rfl, stageRead_congr rfl⟩
  | staged m k c r => simp
  | stream hi m a l k c r => rcases hi with rfl | rfl <;> simp
  | bytes m c r => simp
  | verdict a c r => simp

/-! ### STATUS -/

/-- STATUS as a number: its fields at the weights of R37. -/
theorem statusWord_toNat (s : State) :
    (statusWord s).toNat = ((s.lcode.toNat * 4 + (astateBits s.astate).toNat) * 2 + s.boolFlag.toNat) * 16 +
      (scodeBits s.scode).toNat := by
  have hjoin : ∀ {v w : Nat} (x : BitVec v) (y : BitVec w), (x ++ y).toNat = x.toNat * 2 ^ w + y.toNat := by
    intro v w x y
    rw [BitVec.toNat_append, ← Nat.shiftLeft_add_eq_or_of_lt y.isLt, Nat.shiftLeft_eq]
  simp [statusWord, hjoin]

/-- Settles O10: each field is read off the sum. -/
theorem statusPacksItsFields : Obligations.StatusPacksItsFields := by
  intro s
  have hlcode := s.lcode.isLt
  have hastate := (astateBits s.astate).isLt
  have hbool := s.boolFlag.toNat_lt
  have hscode := (scodeBits s.scode).isLt
  have hscodeBits : bitsAt (statusWord s) 0 4 = (scodeBits s.scode).toNat := by
    rw [bitsAt, statusWord_toNat]; omega
  have hboolBits : bitsAt (statusWord s) 4 1 = s.boolFlag.toNat := by
    rw [bitsAt, statusWord_toNat]; omega
  have hastateBits : bitsAt (statusWord s) 5 2 = (astateBits s.astate).toNat := by
    rw [bitsAt, statusWord_toNat]; omega
  refine ⟨?_, ?_, ?_, ?_, ?_⟩
  · rw [hscodeBits]; cases s.scode <;> rfl
  · rw [hboolBits]; cases s.boolFlag <;> rfl
  · rw [hastateBits]; cases s.astate <;> rfl
  · rw [bitsAt, statusWord_toNat]; omega
  · rw [bitsAt, statusWord_toNat]; omega

/-! ### Steps -/

/-- Settles O16: no access, no step. -/
theorem idleStepChangesNothing : Obligations.IdleStepChangesNothing := by
  intro s hin
  simp [step, nextInput, hin]

/-- An access that starts no command is the whole step (R30). -/
theorem step_of_access {a : Input} {rest : List Input} (hin : s.inputs = a :: rest)
    (ha : takeInput a { s with inputs := rest } = (t, none)) : step s = .next t := by
  simp [step, nextInput, hin, ha]

/-- An access that starts a command: the step is the command (R18). -/
theorem step_of_command {a : Input} {rest : List Input} {w : Word} (hin : s.inputs = a :: rest)
    (ha : takeInput a { s with inputs := rest } = (t, some w)) : step s = runCommand w t := by
  simp [step, nextInput, hin, ha]

/-- The registers of the stream and both buffers are the same in two states. -/
structure SameStream (s t : State) : Prop where
  astate : t.astate = s.astate
  lcode : t.lcode = s.lcode
  len : t.len = s.len
  slen : t.slen = s.slen
  buf : t.buf = s.buf
  stage : t.stage = s.stage

theorem sameStream_writeReg (s : State) (r : Reg) (v : Word) : SameStream s (writeReg s r v) := by
  cases r <;> exact ⟨rfl, rfl, rfl, rfl, rfl, rfl⟩

/-- Of the accesses and edges, an asserted reset alone touches the stream by itself (R62, R241). -/
theorem sameStream_takeInput {a : Input} (ha : a ≠ .assertReset) (s : State) : SameStream s (takeInput a s).1 := by
  cases a with
  | read ix => exact ⟨rfl, rfl, rfl, rfl, rfl, rfl⟩
  | write ix v =>
    simp only [takeInput]
    split
    · exact ⟨rfl, rfl, rfl, rfl, rfl, rfl⟩
    · split
      · exact ⟨rfl, rfl, rfl, rfl, rfl, rfl⟩
      · exact sameStream_writeReg _ _ _
  | assertReset => exact absurd rfl ha
  | releaseReset => exact ⟨rfl, rfl, rfl, rfl, rfl, rfl⟩

/-! ### Invalid is absorbing (R40) -/

/-- R40: no command but S.INIT leaves Invalid. -/
theorem exec_keeps_invalid (hs : s.astate = .invalid) (hi : i ≠ .sInit) (h : exec i s = .next t) :
    t.astate = .invalid := by
  rcases exec_cases h with ⟨-, rfl⟩ | ⟨-, c, r, rfl⟩ | ⟨hinit, -⟩ | ⟨-, h⟩ | ⟨-, h⟩ | ⟨-, h⟩ | ⟨-, h⟩ |
    ⟨-, rfl⟩ | ⟨-, h⟩ | ⟨-, h⟩
  · exact hs
  · exact hs
  · exact absurd hinit hi
  · rcases pushWith_cases h with ⟨-, rfl⟩ | ⟨-, -, rfl⟩ <;> exact hs
  · have hterminal : Terminal s := .inr hs
    rcases appendWith_cases h with ⟨-, rfl⟩ | ⟨hopen, -⟩ | ⟨hopen, -⟩
    · exact hs
    · exact absurd hterminal hopen
    · exact absurd hterminal hopen
  · have hne : s.astate ≠ .empty := by simp [hs]
    rcases setdataWith_cases h with ⟨-, rfl⟩ | ⟨he, -⟩ | ⟨he, -⟩ | ⟨he, -⟩
    · exact hs
    all_goals exact absurd he hne
  · rcases encodeWith_cases h with ⟨-, rfl⟩ | ⟨hc, -⟩
    · exact hs
    · simp [hs] at hc
  · simp [verifyWith, hs, raise_eq]
  · rcases readWith_cases h with ⟨-, rfl⟩ | ⟨-, b, -, rfl⟩ <;> exact hs
  · rcases readtWith_cases h with ⟨-, rfl⟩ | ⟨-, t0, t1, t2, -, -, -, rfl⟩ <;> exact hs

/-- R85: one word is S.INIT. -/
theorem word_of_decode_sInit {w : Word} (h : decode w = .ok .sInit) : w = 0x30#32 := by
  have hop : ∀ op : Byte, commandOf op = some .sInit → op.toNat = 0x30 := by decide
  simp only [decode] at h
  split at h
  · simp at h
  · rename_i hz
    split at h
    · rename_i j hj
      obtain rfl := Except.ok.inj h
      have hlow := hop _ hj
      have hhigh := congrArg BitVec.toNat (not_not.1 hz)
      simp only [BitVec.extractLsb'_toNat, Nat.shiftRight_eq_div_pow, BitVec.toNat_ofNat] at hlow hhigh
      have hw := w.isLt
      apply BitVec.eq_of_toNat_eq
      simp only [BitVec.toNat_ofNat]
      omega
    · simp at h

/-- Settles O50: an access keeps ASTATE, and a command that leaves Invalid is S.INIT. -/
theorem onlyInitOrResetLeavesInvalid : Obligations.OnlyInitOrResetLeavesInvalid := by
  intro s t hs h hleft
  rcases step_cases h with ⟨-, rfl⟩ | ⟨a, rest, hin, ha⟩ | ⟨w, rest, hin, hreset, hrun⟩
  · exact absurd hs hleft
  · by_cases hassert : a = .assertReset
    · exact ⟨rest, .inl (hassert ▸ hin)⟩
    · have hkept := (sameStream_takeInput hassert { s with inputs := rest }).astate
      rw [ha] at hkept
      exact absurd (hkept.trans hs) hleft
  · refine ⟨rest, .inr ⟨hreset, ?_⟩⟩
    simp only [runCommand] at hrun
    split at hrun
    · rename_i i hi
      by_cases hinit : i = .sInit
      · obtain rfl := word_of_decode_sInit (hinit ▸ hi)
        exact hin
      · exact absurd (exec_keeps_invalid (s := { s with inputs := rest }) hs hinit hrun) hleft
    · obtain rfl := Host.Outcome.next.inj hrun
      exact absurd hs hleft

end Sys2Proof.BlockState
end

section
/-! PROOFS. Safe states (R46, 10_state.md): what each command keeps, and that every step from one goes on (R213). -/

namespace Sys2Proof.BlockState

open Sys2Proof.Machine Sys2Proof.Laws Sys2Proof.Safety

variable {p : Params} {i : Instr} {s t : State}

/-! ### The three parts of a safe state -/

/-- A buffer in canonical form and inside CAP, whose first `n` bytes have been written (R44, R45, R49; log 8). -/
structure Filled (p : Params) (m : Memory) (n : Nat) : Prop where
  wf : Memory.wf m
  inside : ∀ c ∈ m, c.1 < p.cap
  fits : n ≤ p.cap
  written : ∀ i < n, (Memory.byteAt m i).isSome

/-- R42, R46: LEN is whole triplets, as many as the class and ASTATE demand. -/
def LenFits (c : LengthClass) (n : Nat) : AState → Prop
  | .empty => n = 0
  | .partly => n % 3 = 0 ∧ 3 ≤ n ∧ ∀ e, expectedTriplets c = some e → n < 3 * e
  | .complete => n % 3 = 0 ∧ lengthOk c n = true
  | .invalid => n % 3 = 0

theorem LenFits.triplets {c : LengthClass} {n : Nat} {a : AState} (h : LenFits c n a) : n % 3 = 0 := by
  cases a with
  | empty => rw [show n = 0 from h]
  | partly => exact h.1
  | complete => exact h.1
  | invalid => exact h

/-- SafeState by its parts: BUF up to LEN, STAGE up to SLEN, and LEN itself. -/
theorem safeState_iff : SafeState p s ↔
    Filled p s.buf s.len.toNat ∧ Filled p s.stage s.slen.toNat ∧ LenFits (clsOf p s) s.len.toNat s.astate := by
  constructor
  · intro h
    refine ⟨⟨h.bufWf, h.bufInside, h.lenCap, h.bufWritten⟩, ⟨h.stageWf, h.stageInside, h.slenCap, h.stageWritten⟩, ?_⟩
    cases ha : s.astate with
    | empty => exact h.emptyLen ha
    | partly => exact ⟨h.lenTriplets, h.partlyLen ha⟩
    | complete =>
      refine ⟨h.lenTriplets, ?_⟩
      cases he : expectedTriplets (clsOf p s) with
      | none => simpa [lengthOk_variable he] using h.completeVariableLen ha he
      | some e => simpa [lengthOk_fixed he] using h.completeFixedLen e ha he
    | invalid => exact h.lenTriplets
  · rintro ⟨hbuf, hstage, hlen⟩
    exact {
      bufWf := hbuf.wf
      stageWf := hstage.wf
      bufInside := hbuf.inside
      stageInside := hstage.inside
      lenTriplets := hlen.triplets
      lenCap := hbuf.fits
      slenCap := hstage.fits
      bufWritten := hbuf.written
      stageWritten := hstage.written
      emptyLen := fun ha => by rw [ha] at hlen; exact hlen
      partlyLen := fun ha => by rw [ha] at hlen; exact hlen.2
      completeFixedLen := fun e ha he => by
        rw [ha] at hlen; simpa [lengthOk_fixed he] using hlen.2
      completeVariableLen := fun ha he => by
        rw [ha] at hlen; simpa [lengthOk_variable he] using hlen.2 }

/-- The results are no part of safety. -/
@[simp] theorem safeState_record (c : StatusCode) (r : Results) : SafeState p (s.record c r) ↔ SafeState p s := by
  simp [safeState_iff]

/-- Safety looks at the stream and the buffers alone. -/
theorem SameStream.safe (h : SameStream s t) (hs : SafeState p s) : SafeState p t := by
  rw [safeState_iff, clsOf, h.astate, h.lcode, h.len, h.slen, h.buf, h.stage]
  exact safeState_iff.1 hs

/-! ### Filled buffers -/

theorem filled_nil (p : Params) : Filled p [] 0 :=
  ⟨.nil, fun _ hc => absurd hc List.not_mem_nil, Nat.zero_le _, fun _ hi => absurd hi (Nat.not_lt_zero _)⟩

theorem Filled.mono {m : Memory} {k n : Nat} (h : Filled p m n) (hk : k ≤ n) : Filled p m k :=
  ⟨h.wf, h.inside, hk.trans h.fits, fun i hi => h.written i (by omega)⟩

/-- One byte written at the end of what is filled. -/
theorem Filled.put {m : Memory} {n : Nat} (h : Filled p m n) (hn : n < p.cap) (v : Byte) :
    Filled p (Memory.put m n v) (n + 1) where
  wf := wf_put _ _ _ h.wf
  inside c hc := by
    rcases mem_put _ _ _ _ hc with hnew | hold
    · omega
    · exact h.inside c hold
  fits := hn
  written i hi := by
    rw [byteAt_put]
    split
    · rfl
    · exact h.written i (by omega)

/-- A stretch written at the end of what is filled. -/
theorem Filled.memWriteList {n : Nat} {bs : List Byte} (h : Filled p s.buf n) (hcap : n + bs.length ≤ p.cap)
    (hw : memWriteList p n bs s = some t) : Filled p t.buf (n + bs.length) := by
  obtain ⟨-, hbytes, hwf, hinside⟩ := memWriteList_spec hw
  refine ⟨hwf h.wf, hinside h.inside, hcap, fun i hi => ?_⟩
  rw [hbytes]
  split
  · rw [List.getElem?_eq_getElem (by omega)]
    rfl
  · exact h.written i (by omega)

/-- The encode transform unwrites no byte. -/
theorem Filled.encodeTriplets {n k : Nat} (h : Filled p s.buf n) (he : encodeTriplets p k s = some t) :
    Filled p t.buf n := by
  obtain ⟨-, -, -, hwritten, hwf, hinside⟩ := encodeTriplets_spec he
  exact ⟨hwf h.wf, hinside h.inside, h.fits, fun i hi => hwritten i (h.written i hi)⟩

/-! ### LEN after a commit -/

/-- S.APPEND's commit: whole triplets within the class, Complete when they fill it (R174). -/
theorem lenFits_append {c : LengthClass} {n : Nat} (h3 : n % 3 = 0) (hpos : 0 < n)
    (hex : exceedsClass c (n / 3) = false) : LenFits c n (if fillsClass c (n / 3) then .complete else .partly) := by
  split
  · rename_i hfills
    refine ⟨h3, ?_⟩
    rw [lengthOk_fixed ((fillsClass_iff _ _).1 hfills)]
    simp only [decide_eq_true_eq]
    omega
  · rename_i hfills
    refine ⟨h3, by omega, fun e he => ?_⟩
    have hle : ¬ e < n / 3 := fun hlt => by simp [(exceedsClass_iff _ _).2 ⟨e, he, hlt⟩] at hex
    have hne : e ≠ n / 3 := fun heq => hfills ((fillsClass_iff _ _).2 (heq ▸ he))
    omega

/-- S.SETDATA's commit: a length that passed the checks is one that S.VERIFY takes (R178, R187). -/
theorem lenFits_setdata {c : LengthClass} {n : Nat} (h3 : n % 3 = 0) (hpos : 0 < n)
    (hfixed : ∀ e, expectedTriplets c = some e → n = 3 * e) : LenFits c n .complete := by
  refine ⟨h3, ?_⟩
  cases he : expectedTriplets c with
  | none => rw [lengthOk_variable he, decide_eq_true_eq]; omega
  | some e => rw [lengthOk_fixed he, decide_eq_true_eq]; exact hfixed e he

/-! ### What keeps a safe state safe -/

/-- A stream whose bytes are kept may lose staged bytes and change ASTATE, if LEN still fits (R46). -/
theorem safe_setStream (hs : SafeState p s) {a : AState} {k : Half} (hk : k.toNat ≤ s.slen.toNat)
    (ha : LenFits (clsOf p s) s.len.toNat a) : SafeState p (s.setStream a s.len k) := by
  obtain ⟨hbuf, hstage, -⟩ := safeState_iff.1 hs
  exact safeState_iff.2 ⟨hbuf, hstage.mono hk, ha⟩

theorem safe_invalidate (hs : SafeState p s) : SafeState p (invalidate s) :=
  safe_setStream hs (Nat.zero_le _) hs.lenTriplets

theorem safe_dropStage (hs : SafeState p s) : SafeState p (dropStage s) :=
  safe_setStream hs (Nat.zero_le _) (safeState_iff.1 hs).2.2

/-- The commit of S.APPEND and S.SETDATA: bytes written from `n` upward, LEN just past them, STAGE empty. -/
theorem safe_commit (hs : SafeState p s) {n : Nat} {bs : List Byte} {s1 : State} {a : AState} {len : Half}
    (hn : n ≤ s.len.toNat) (hcap : n + bs.length ≤ p.cap) (hw : memWriteList p n bs s = some s1)
    (hlen : len.toNat = n + bs.length) (ha : LenFits (clsOf p s) (n + bs.length) a) :
    SafeState p (s1.setStream a len 0#16) := by
  obtain ⟨hbuf, hstage, -⟩ := safeState_iff.1 hs
  have hfilled := (hbuf.mono hn).memWriteList hcap hw
  rw [(memWriteList_spec hw).1, safeState_iff]
  simp only [State.setStream_buf, State.setStream_stage, State.setStream_len, State.setStream_slen,
    State.setStream_astate, State.setBuf_buf, State.setBuf_stage, clsOf_setStream, clsOf_setBuf, hlen]
  exact ⟨hfilled, hstage.mono (Nat.zero_le _), ha⟩

/-- Empty, with no byte in the stream or staged, is safe whatever the buffers keep (R172, R240). -/
theorem safe_fresh (hbuf : Filled p s.buf 0) (hstage : Filled p s.stage 0) (ha : s.astate = .empty)
    (hlen : s.len = 0#16) (hslen : s.slen = 0#16) : SafeState p s := by
  rw [safeState_iff, ha, hlen, hslen]
  exact ⟨hbuf, hstage, rfl⟩

theorem safe_init (hs : SafeState p s) : SafeState p (initStream s) := by
  obtain ⟨hbuf, hstage, -⟩ := safeState_iff.1 hs
  exact safe_fresh (hbuf.mono (Nat.zero_le _)) (hstage.mono (Nat.zero_le _)) rfl rfl rfl

theorem safe_push (hp : p.valid = true) (hs : SafeState p s) (h : pushWith p s = .next t) : SafeState p t := by
  obtain ⟨hbuf, hstage, hlen⟩ := safeState_iff.1 hs
  rcases pushWith_cases h with ⟨-, rfl⟩ | ⟨-, hlt, rfl⟩
  · simpa using hs
  · rw [safeState_record, safeState_iff]
    simp only [State.setStream_slen, slen_add_one hp s hlt]
    exact ⟨hbuf, hstage.put hlt _, hlen⟩

theorem safe_append (hp : p.valid = true) (hs : SafeState p s) (h : appendWith p s = .next t) : SafeState p t := by
  have h3 := hs.lenTriplets
  rcases appendWith_cases h with ⟨-, rfl⟩ | ⟨-, -, rfl⟩ | ⟨-, hpos, hk, bs, hbs, hchecked⟩
  · simpa using safe_dropStage hs
  · simpa using safe_invalidate hs
  · rcases hchecked with ⟨j, c, x, -, rfl⟩ | ⟨-, ⟨-, rfl⟩ | ⟨-, -, rfl⟩ | ⟨hex, hcap, s1, hw, rfl⟩⟩
    · simpa using safe_invalidate hs
    · simpa using safe_invalidate hs
    · simpa using safe_invalidate hs
    · have hlen := len_add_slen hp s hcap
      rw [safeState_record]
      rw [← (stageReadList_spec hbs).1] at hpos hk hex hcap hlen ⊢
      exact safe_commit hs le_rfl hcap hw hlen (lenFits_append (by omega) (by omega) hex)

theorem safe_setdata (hs : SafeState p s) (h : setdataWith p s = .next t) : SafeState p t := by
  rcases setdataWith_cases h with ⟨-, rfl⟩ | ⟨-, -, rfl⟩ | ⟨-, -, -, rfl⟩ |
    ⟨-, hfixed, hpos, hk, bs, s1, hbs, hw, rfl⟩
  · simpa using safe_dropStage hs
  · simpa using safe_invalidate hs
  · simpa using safe_invalidate hs
  · have hcount : 0 + bs.length = s.slen.toNat := by rw [Nat.zero_add, (stageReadList_spec hbs).1]
    rw [safeState_record]
    refine safe_commit hs (Nat.zero_le _) (hcount ▸ hs.slenCap) hw hcount.symm ?_
    rw [hcount]
    exact lenFits_setdata hk hpos hfixed

theorem safe_encode (hs : SafeState p s) (h : encodeWith p s = .next t) : SafeState p t := by
  rcases encodeWith_cases h with ⟨-, rfl⟩ | ⟨-, s1, hs1, rfl⟩
  · simpa using hs
  · obtain ⟨hbuf, hstage, hlen⟩ := safeState_iff.1 hs
    have hfilled := hbuf.encodeTriplets hs1
    rw [safeState_record, (encodeTriplets_spec hs1).1]
    exact safeState_iff.2 ⟨hfilled, hstage, hlen⟩

theorem safe_verify (hs : SafeState p s) : SafeState p (verifyWith p s) := by
  obtain ⟨-, -, hlen⟩ := safeState_iff.1 hs
  rcases verifyWith_cases p s with ⟨-, h⟩ | ⟨-, hok, h⟩ | ⟨-, -, h⟩ <;> rw [h, safeState_record]
  · exact hs
  · refine safe_setStream hs le_rfl ?_
    split
    · exact ⟨hs.lenTriplets, hok⟩
    · exact hlen
  · exact safe_setStream hs le_rfl hs.lenTriplets

/-- Every command keeps a safe state safe (R46). -/
theorem safe_exec (hs : SafeState Config.chip s) (h : exec i s = .next t) : SafeState Config.chip t := by
  rcases exec_cases h with ⟨-, rfl⟩ | ⟨-, c, r, rfl⟩ | ⟨-, rfl⟩ | ⟨-, h⟩ | ⟨-, h⟩ | ⟨-, h⟩ | ⟨-, h⟩ | ⟨-, rfl⟩ |
    ⟨-, h⟩ | ⟨-, h⟩
  · exact hs
  · simpa using hs
  · exact safe_init hs
  · exact safe_push chip_valid hs h
  · exact safe_append chip_valid hs h
  · exact safe_setdata hs h
  · exact safe_encode hs h
  · exact safe_verify hs
  · rcases readWith_cases h with ⟨-, rfl⟩ | ⟨-, b, -, rfl⟩ <;> simpa using hs
  · rcases readtWith_cases h with ⟨-, rfl⟩ | ⟨-, t0, t1, t2, -, -, -, rfl⟩ <;> simpa using hs

theorem safe_runCommand {w : Word} (hs : SafeState Config.chip s) (h : runCommand w s = .next t) :
    SafeState Config.chip t := by
  simp only [runCommand] at h
  split at h
  · exact safe_exec hs h
  · obtain rfl := Host.Outcome.next.inj h
    simpa [raise_eq] using hs

/-- An access keeps the stream, and an asserted reset empties it (R240). -/
theorem safe_takeInput (a : Input) (hs : SafeState p s) : SafeState p (takeInput a s).1 := by
  by_cases ha : a = .assertReset
  · subst ha
    exact safe_fresh (filled_nil p) (filled_nil p) rfl rfl rfl
  · exact (sameStream_takeInput ha s).safe hs

/-- The host's list of accesses is no part of safety. -/
theorem safe_inputs (inputs : List Input) (hs : SafeState p s) : SafeState p { s with inputs := inputs } :=
  SameStream.safe (s := s) ⟨rfl, rfl, rfl, rfl, rfl, rfl⟩ hs

/-- Settles O52: an access keeps the stream or resets it, and every command keeps each part of safety. -/
theorem everyStepKeepsSafe : Obligations.EveryStepKeepsSafe := by
  intro s t hs h
  rcases step_cases h with ⟨-, rfl⟩ | ⟨a, rest, -, ha⟩ | ⟨w, rest, -, -, hrun⟩
  · exact hs
  · have hsafe := safe_takeInput a (safe_inputs rest hs)
    rwa [ha] at hsafe
  · exact safe_runCommand (safe_inputs rest hs) hrun

/-- Settles O51: no byte is in the stream or staged. -/
theorem resetIsSafe : Obligations.ResetIsSafe :=
  fun _ => safe_fresh (filled_nil _) (filled_nil _) rfl rfl rfl

/-! ### A safe state goes on (R213) -/

theorem push_completes (h : s.slen.toNat ≤ p.cap) : ∃ t, pushWith p s = .next t := by
  simp only [pushWith]
  split
  · exact ⟨_, rfl⟩
  · simp [stageWrite, show s.slen.toNat < p.cap by omega]

theorem commitAppend_completes {bs : List Byte} (h : s.len.toNat + bs.length ≤ p.cap) :
    ∃ t, commitAppend p bs s = .next t := by
  obtain ⟨s1, hs1⟩ := memWriteList_isSome (s := s) h
  simp [commitAppend, hs1]

theorem append_completes (h : s.slen.toNat ≤ p.cap) : ∃ t, appendWith p s = .next t := by
  obtain ⟨bs, hbs⟩ := stageReadList_isSome (s := s) (i := 0) (by omega : 0 + s.slen.toNat ≤ p.cap)
  have hcount := (stageReadList_spec hbs).1
  simp only [appendWith, hbs]
  split
  · exact ⟨_, rfl⟩
  · split
    · exact ⟨_, rfl⟩
    · split
      · exact ⟨_, rfl⟩
      · split
        · exact ⟨_, rfl⟩
        · split
          · exact ⟨_, rfl⟩
          · exact commitAppend_completes (by omega)

theorem commitSetdata_completes (h : s.slen.toNat ≤ p.cap) : ∃ t, commitSetdata p s = .next t := by
  obtain ⟨bs, hbs⟩ := stageReadList_isSome (s := s) (i := 0) (by omega : 0 + s.slen.toNat ≤ p.cap)
  have hcount := (stageReadList_spec hbs).1
  obtain ⟨s1, hs1⟩ := memWriteList_isSome (s := s) (i := 0) (bs := bs) (by omega : 0 + bs.length ≤ p.cap)
  simp [commitSetdata, hbs, hs1]

theorem setdata_completes (h : s.slen.toNat ≤ p.cap) : ∃ t, setdataWith p s = .next t := by
  simp only [setdataWith]
  split
  · exact ⟨_, rfl⟩
  · split
    · split
      · exact ⟨_, rfl⟩
      · exact commitSetdata_completes h
    · split
      · exact ⟨_, rfl⟩
      · exact commitSetdata_completes h

theorem encode_completes (h : s.len.toNat ≤ p.cap) : ∃ t, encodeWith p s = .next t := by
  obtain ⟨s1, hs1⟩ := encodeTriplets_isSome (s := s) (n := s.len.toNat / 3) (by omega : _ ≤ p.cap)
  simp only [encodeWith, hs1]
  split
  · exact ⟨_, rfl⟩
  · exact ⟨_, rfl⟩

theorem read_completes (h : s.len.toNat ≤ p.cap) : ∃ t, readWith p s = .next t := by
  simp only [readWith]
  split
  · exact ⟨_, rfl⟩
  · simp [memRead_of_lt s (by omega : ix s.opa < p.cap)]

theorem readt_completes (h : s.len.toNat ≤ p.cap) : ∃ t, readtWith p s = .next t := by
  simp only [readtWith]
  split
  · exact ⟨_, rfl⟩
  · simp [memRead_of_lt s (by omega : 3 * ix s.opa < p.cap), memRead_of_lt s (by omega : 3 * ix s.opa + 1 < p.cap),
      memRead_of_lt s (by omega : 3 * ix s.opa + 2 < p.cap)]

/-- R213: from a safe state every command completes. -/
theorem exec_completes (hs : SafeState Config.chip s) (i : Instr) : ∃ t, exec i s = .next t := by
  by_cases hpure : isPure i = true
  · obtain ⟨c, r, h⟩ := exec_pure_cases hpure s
    exact ⟨_, h⟩
  · cases i <;> simp only [isPure, not_true_eq_false] at hpure
    case nop => exact ⟨_, rfl⟩
    case sInit => exact ⟨_, rfl⟩
    case sPush => exact push_completes hs.slenCap
    case sAppend => exact append_completes hs.slenCap
    case sSetdata => exact setdata_completes hs.slenCap
    case sEncode => exact encode_completes hs.lenCap
    case sVerify => exact ⟨_, rfl⟩
    case sRead => exact read_completes hs.lenCap
    case sReadt => exact readt_completes hs.lenCap

theorem runCommand_completes (hs : SafeState Config.chip s) (w : Word) : ∃ t, runCommand w s = .next t := by
  simp only [runCommand]
  split
  · exact exec_completes hs _
  · exact ⟨_, rfl⟩

/-- R213: from a safe state every step completes. -/
theorem step_completes (hs : SafeState Config.chip s) : ∃ t, step s = .next t := by
  cases hin : s.inputs with
  | nil => exact ⟨s, idleStepChangesNothing s hin⟩
  | cons a rest =>
    have hsafe := safe_takeInput a (safe_inputs rest hs)
    rcases ha : takeInput a { s with inputs := rest } with ⟨s2, _ | w⟩
    · exact ⟨s2, step_of_access hin ha⟩
    · rw [ha] at hsafe
      rw [step_of_command hin ha]
      exact runCommand_completes hsafe w

/-- Runs from a safe state go on and stay safe (R46, R213). -/
theorem run_safe (k : Nat) (hs : SafeState Config.chip s) :
    ∃ t, core.run k s = .next t ∧ SafeState Config.chip t := by
  induction k generalizing s with
  | zero => exact ⟨s, rfl, hs⟩
  | succ k ih =>
    obtain ⟨u, hu⟩ := step_completes hs
    obtain ⟨t, ht, hsafe⟩ := ih (everyStepKeepsSafe s u hs hu)
    refine ⟨t, ?_, hsafe⟩
    have hstep : core.step s = .next u := hu
    simp only [Host.Core.run, hstep, ht]

/-- Settles O54: reset is safe, and so is every run from a safe state. -/
theorem everyRunFromResetStaysSafe : Obligations.EveryRunFromResetStaysSafe :=
  fun inputs k => run_safe k (resetIsSafe inputs)

end Sys2Proof.BlockState
end

section
/-! PROOFS. The bytes of BUF at LEN and above, and of STAGE at SLEN and above, stay unobservable (R44, R45, R49,
10_state.md): whatever they hold, each command reports the same and leaves the same visible state. -/

namespace Sys2Proof.BlockState

open Sys2Proof.Machine Sys2Proof.Laws Sys2Proof.Safety

variable {p : Params} {s u t : State} {l k : Nat}

/-! ### States that agree up to given counts of bytes -/

/-- Equal but for the bytes of BUF from `l` upward and of STAGE from `k` upward. -/
structure AgreeUpTo (p : Params) (l k : Nat) (s u : State) : Prop where
  registers : u = { s with buf := u.buf, stage := u.stage }
  bufBytes : ∀ i < l, memRead p u i = memRead p s i
  stageBytes : ∀ i < k, stageRead p u i = stageRead p s i

theorem sameVisible_iff : SameVisible p s u ↔ AgreeUpTo p s.len.toNat s.slen.toNat s u :=
  ⟨fun h => ⟨h.registers, h.bufBytes, h.stageBytes⟩, fun h => ⟨h.registers, h.bufBytes, h.stageBytes⟩⟩

/-- The other state is the first one with other bytes. -/
theorem AgreeUpTo.exists_bytes (h : AgreeUpTo p l k s u) : ∃ b g, u = (s.setBuf b).setStage g :=
  ⟨u.buf, u.stage, h.registers⟩

theorem AgreeUpTo.mono (h : AgreeUpTo p l k s u) {l' k' : Nat} (hl : l' ≤ l) (hk : k' ≤ k) :
    AgreeUpTo p l' k' s u :=
  ⟨h.registers, fun i hi => h.bufBytes i (by omega), fun i hi => h.stageBytes i (by omega)⟩

/-- The same results recorded in both. -/
theorem AgreeUpTo.record (h : AgreeUpTo p l k s u) (c : StatusCode) (r : Results) :
    AgreeUpTo p l k (s.record c r) (u.record c r) := by
  obtain ⟨b, g, rfl⟩ := h.exists_bytes
  exact ⟨rfl, h.bufBytes, h.stageBytes⟩

/-- The same stream registers put in both. -/
theorem AgreeUpTo.setStream (h : AgreeUpTo p l k s u) (a : AState) (n m : Half) :
    AgreeUpTo p l k (s.setStream a n m) (u.setStream a n m) := by
  obtain ⟨b, g, rfl⟩ := h.exists_bytes
  exact ⟨rfl, h.bufBytes, h.stageBytes⟩

/-- The same byte written to both agrees at its index too. -/
theorem AgreeUpTo.memWrite (h : AgreeUpTo p l k s u) {i l' : Nat} {v : Byte} (hw : memWrite p i v s = some t)
    (hl : ∀ a < l', a = i ∨ a < l) : ∃ w, memWrite p i v u = some w ∧ AgreeUpTo p l' k t w := by
  have ht := memRead_memWrite hw
  obtain ⟨hi, rfl⟩ := memWrite_spec hw
  have hwu : Machine.memWrite p i v u = some (u.setBuf (Memory.put u.buf i v)) := if_pos hi
  have hu := memRead_memWrite hwu
  refine ⟨_, hwu, ?_, fun a ha => ?_, h.stageBytes⟩
  · obtain ⟨b, g, rfl⟩ := h.exists_bytes
    rfl
  · rw [hu, ht]
    split
    · rfl
    · exact h.bufBytes a ((hl a ha).resolve_left ‹_›)

theorem AgreeUpTo.stageWrite (h : AgreeUpTo p l k s u) {v : Byte} (hw : stageWrite p k v s = some t) :
    ∃ w, stageWrite p k v u = some w ∧ AgreeUpTo p l (k + 1) t w := by
  have ht := stageRead_stageWrite hw
  obtain ⟨hi, rfl⟩ := stageWrite_spec hw
  have hwu : Machine.stageWrite p k v u = some (u.setStage (Memory.put u.stage k v)) := if_pos hi
  have hu := stageRead_stageWrite hwu
  refine ⟨_, hwu, ?_, h.bufBytes, fun a ha => ?_⟩
  · obtain ⟨b, g, rfl⟩ := h.exists_bytes
    rfl
  · rw [hu, ht]
    split
    · rfl
    · exact h.stageBytes a (by omega)

/-- A stretch written where the agreement ends extends it. -/
theorem AgreeUpTo.memWriteList {bs : List Byte} (h : AgreeUpTo p l k s u) (hw : memWriteList p l bs s = some t) :
    ∃ w, memWriteList p l bs u = some w ∧ AgreeUpTo p (l + bs.length) k t w := by
  induction bs generalizing l s u with
  | nil =>
    obtain rfl := Option.some.inj hw
    exact ⟨u, rfl, h⟩
  | cons b bs ih =>
    simp only [Machine.memWriteList] at hw
    split at hw
    · rename_i s1 hs1
      obtain ⟨u1, hu1, h1⟩ := h.memWrite (l' := l + 1) hs1 (by omega)
      obtain ⟨w, hwu, h2⟩ := ih h1 hw
      exact ⟨w, by simp only [Machine.memWriteList, hu1, hwu], h2.mono (by simp; omega) le_rfl⟩
    · simp at hw

theorem AgreeUpTo.stageReadList (h : AgreeUpTo p l k s u) {i n : Nat} (hn : i + n ≤ k) :
    stageReadList p u i n = stageReadList p s i n := by
  induction n generalizing i with
  | zero => rfl
  | succ n ih => simp only [Machine.stageReadList, h.stageBytes i (by omega), ih (i := i + 1) (by omega)]

/-- The transform of a triplet reads and writes inside the triplet. -/
theorem AgreeUpTo.encodeTriplet (h : AgreeUpTo p l k s u) {j : Nat} (hj : 3 * j + 3 ≤ l)
    (he : encodeTriplet p j s = some t) : ∃ w, encodeTriplet p j u = some w ∧ AgreeUpTo p l k t w := by
  simp only [Machine.encodeTriplet] at he
  split at he
  · rename_i r0 r1 h0 h1
    split at he
    · rename_i s1 hs1
      obtain ⟨u1, hu1, h2⟩ := h.memWrite (l' := l) hs1 (by omega)
      obtain ⟨w, hw, h3⟩ := h2.memWrite (l' := l) he (by omega)
      refine ⟨w, ?_, h3⟩
      simp only [Machine.encodeTriplet, h.bufBytes (3 * j) (by omega), h.bufBytes (3 * j + 1) (by omega), h0, h1, hu1,
        hw]
    · simp at he
  · simp at he

theorem AgreeUpTo.encodeTriplets (h : AgreeUpTo p l k s u) {n : Nat} (hn : 3 * n ≤ l)
    (he : encodeTriplets p n s = some t) : ∃ w, encodeTriplets p n u = some w ∧ AgreeUpTo p l k t w := by
  induction n generalizing t with
  | zero =>
    obtain rfl := Option.some.inj he
    exact ⟨u, rfl, h⟩
  | succ n ih =>
    simp only [Machine.encodeTriplets] at he
    split at he
    · rename_i s1 hs1
      obtain ⟨u1, hu1, h1⟩ := ih (by omega) hs1
      obtain ⟨w, hw, h2⟩ := h1.encodeTriplet (by omega) he
      exact ⟨w, by simp only [Machine.encodeTriplets, hu1, hw], h2⟩
    · simp at he

/-! ### Operations that hide the unobservable bytes -/

/-- An operation is matched from every state that looks the same, and what it leaves looks the same. -/
def Hides (p : Params) (f : State → Host.Outcome State Fault Refusal) : Prop :=
  ∀ s u t, SameVisible p s u → f s = .next t → ∃ v, f u = .next v ∧ SameVisible p t v

theorem sameVisible_exists_bytes (h : SameVisible p s u) : ∃ b g, u = (s.setBuf b).setStage g :=
  (sameVisible_iff.1 h).exists_bytes

theorem sameVisible_record (h : SameVisible p s u) (c : StatusCode) (r : Results) :
    SameVisible p (s.record c r) (u.record c r) :=
  sameVisible_iff.2 ((sameVisible_iff.1 h).record c r)

/-- New counts of visible bytes, up to which the states agree. -/
theorem AgreeUpTo.sameVisible_setStream (h : AgreeUpTo p l k s u) (a : AState) {n m : Half} (hn : n.toNat ≤ l)
    (hm : m.toNat ≤ k) : SameVisible p (s.setStream a n m) (u.setStream a n m) :=
  sameVisible_iff.2 ((h.mono hn hm).setStream a n m)

theorem sameVisible_invalidate (h : SameVisible p s u) : SameVisible p (invalidate s) (invalidate u) := by
  obtain ⟨b, g, rfl⟩ := sameVisible_exists_bytes h
  exact (sameVisible_iff.1 h).sameVisible_setStream _ le_rfl (Nat.zero_le _)

theorem sameVisible_dropStage (h : SameVisible p s u) : SameVisible p (dropStage s) (dropStage u) := by
  obtain ⟨b, g, rfl⟩ := sameVisible_exists_bytes h
  exact (sameVisible_iff.1 h).sameVisible_setStream _ le_rfl (Nat.zero_le _)

theorem hides_init (p : Params) : Hides p execSInit := by
  intro s u t h hs
  obtain rfl := Host.Outcome.next.inj hs
  obtain ⟨b, g, rfl⟩ := sameVisible_exists_bytes h
  exact ⟨_, rfl, rfl, fun i hi => absurd hi (Nat.not_lt_zero i), fun i hi => absurd hi (Nat.not_lt_zero i)⟩

theorem hides_push (p : Params) : Hides p (pushWith p) := by
  intro s u t h hs
  simp only [pushWith] at hs
  obtain ⟨b, g, rfl⟩ := sameVisible_exists_bytes h
  split at hs
  · rename_i hfull
    obtain rfl := Host.Outcome.next.inj hs
    exact ⟨_, if_pos hfull, sameVisible_record h _ _⟩
  · rename_i hroom
    split at hs
    · simp at hs
    · rename_i s1 hs1
      obtain rfl := Host.Outcome.next.inj hs
      obtain ⟨u1, hu1, hagree⟩ := (sameVisible_iff.1 h).stageWrite hs1
      obtain ⟨-, rfl⟩ := stageWrite_spec hs1
      refine ⟨_, ?_, sameVisible_record (hagree.sameVisible_setStream s.astate (n := s.len) le_rfl ?_) .ok {}⟩
      · simp [pushWith, hroom, hu1, finish_eq]
      · rw [BitVec.toNat_add]
        exact Nat.mod_le _ _

/-- The commit of S.APPEND, for as many bytes as are staged. -/
theorem hides_commitAppend {bs : List Byte} (h : SameVisible p s u) (hcount : bs.length = s.slen.toNat)
    (hs : commitAppend p bs s = .next t) : ∃ v, commitAppend p bs u = .next v ∧ SameVisible p t v := by
  have hagree := sameVisible_iff.1 h
  obtain ⟨b, g, rfl⟩ := sameVisible_exists_bytes h
  simp only [commitAppend] at hs
  split at hs
  · simp at hs
  · rename_i s1 hw
    obtain rfl := Host.Outcome.next.inj hs
    obtain ⟨u1, hu1, h1⟩ := hagree.memWriteList hw
    refine ⟨_, ?_, sameVisible_record (h1.sameVisible_setStream _ ?_ (Nat.zero_le _)) _ _⟩
    · simp only [commitAppend, State.setStage_len, State.setBuf_len, hu1]
      rfl
    · rw [hcount, BitVec.toNat_add]
      exact Nat.mod_le _ _

theorem hides_append (p : Params) : Hides p (appendWith p) := by
  intro s u t h hs
  have hstage := (sameVisible_iff.1 h).stageReadList (i := 0) (n := s.slen.toNat) (by omega)
  have hdrop := sameVisible_dropStage h
  have hinvalid := sameVisible_invalidate h
  obtain ⟨b, g, rfl⟩ := sameVisible_exists_bytes h
  simp only [appendWith] at hs
  split at hs
  · rename_i hterm
    obtain rfl := Host.Outcome.next.inj hs
    exact ⟨_, if_pos hterm, sameVisible_record hdrop _ _⟩
  rename_i hopen
  split at hs
  · rename_i hk
    obtain rfl := Host.Outcome.next.inj hs
    exact ⟨_, (if_neg hopen).trans (if_pos hk), sameVisible_record hinvalid _ _⟩
  rename_i hk
  split at hs
  · simp at hs
  rename_i bs hbs
  rw [hbs] at hstage
  split at hs
  · rename_i j c x hbad
    obtain rfl := Host.Outcome.next.inj hs
    exact ⟨_, by simp [appendWith, hopen, hk, hstage, hbad, raise_eq], sameVisible_record hinvalid _ _⟩
  rename_i hgood
  split at hs
  · rename_i hex
    obtain rfl := Host.Outcome.next.inj hs
    exact ⟨_, by simp [appendWith, hopen, hk, hstage, hgood, hex, raise_eq], sameVisible_record hinvalid _ _⟩
  rename_i hex
  split at hs
  · rename_i hcap
    obtain rfl := Host.Outcome.next.inj hs
    exact ⟨_, by simp [appendWith, hopen, hk, hstage, hgood, hex, hcap, raise_eq], sameVisible_record hinvalid _ _⟩
  · rename_i hcap
    obtain ⟨v, hv, hsame⟩ := hides_commitAppend h (stageReadList_spec hbs).1 hs
    exact ⟨v, by simp [appendWith, hopen, hk, hstage, hgood, hex, hcap, hv], hsame⟩

theorem hides_commitSetdata (p : Params) : Hides p (commitSetdata p) := by
  intro s u t h hs
  obtain ⟨bs, s1, hbs, hw, rfl⟩ := commitSetdata_cases hs
  have hagree := sameVisible_iff.1 h
  have hstage := hagree.stageReadList (i := 0) (n := s.slen.toNat) (by omega)
  obtain ⟨u1, hu1, h1⟩ := (hagree.mono (Nat.zero_le _) le_rfl).memWriteList hw
  obtain ⟨b, g, rfl⟩ := sameVisible_exists_bytes h
  refine ⟨_, ?_, sameVisible_record (h1.sameVisible_setStream _ ?_ (Nat.zero_le _)) _ _⟩
  · simp [commitSetdata, hstage, hbs, hu1, finish_eq]
  · rw [(stageReadList_spec hbs).1, Nat.zero_add]

theorem hides_setdata (p : Params) : Hides p (setdataWith p) := by
  intro s u t h hs
  have hcommit := hides_commitSetdata p s u t h
  have hdrop := sameVisible_dropStage h
  have hinvalid := sameVisible_invalidate h
  obtain ⟨b, g, rfl⟩ := sameVisible_exists_bytes h
  simp only [setdataWith] at hs
  split at hs
  · rename_i hne
    obtain rfl := Host.Outcome.next.inj hs
    exact ⟨_, if_pos hne, sameVisible_record hdrop _ _⟩
  rename_i hempty
  split at hs
  · rename_i e hexp
    split at hs
    · rename_i hk
      obtain rfl := Host.Outcome.next.inj hs
      exact ⟨_, by simp [setdataWith, hempty, hexp, hk, raise_eq], sameVisible_record hinvalid _ _⟩
    · rename_i hk
      obtain ⟨v, hv, hsame⟩ := hcommit hs
      exact ⟨v, by simp [setdataWith, hempty, hexp, hk, hv], hsame⟩
  · rename_i hexp
    split at hs
    · rename_i hk
      obtain rfl := Host.Outcome.next.inj hs
      exact ⟨_, by simp [setdataWith, hempty, hexp, hk, raise_eq], sameVisible_record hinvalid _ _⟩
    · rename_i hk
      obtain ⟨v, hv, hsame⟩ := hcommit hs
      exact ⟨v, by simp [setdataWith, hempty, hexp, hk, hv], hsame⟩

theorem hides_encode (p : Params) : Hides p (encodeWith p) := by
  intro s u t h hs
  have hagree := sameVisible_iff.1 h
  obtain ⟨b, g, rfl⟩ := sameVisible_exists_bytes h
  rcases encodeWith_cases hs with ⟨hne, rfl⟩ | ⟨hc, s1, hs1, rfl⟩
  · exact ⟨_, if_pos hne, sameVisible_record h _ _⟩
  · obtain ⟨u1, hu1, h1⟩ := hagree.encodeTriplets (by omega) hs1
    refine ⟨u1.record .ok {}, by simp [encodeWith, hc, hu1, finish_eq], sameVisible_record ?_ _ _⟩
    rw [sameVisible_iff]
    rw [(encodeTriplets_spec hs1).1] at h1 ⊢
    exact h1

theorem hides_verify (p : Params) : Hides p fun s => .next (verifyWith p s) := by
  intro s u t h hs
  obtain rfl := Host.Outcome.next.inj hs
  have hagree := sameVisible_iff.1 h
  obtain ⟨b, g, rfl⟩ := sameVisible_exists_bytes h
  refine ⟨_, rfl, ?_⟩
  rcases verifyWith_cases p s with ⟨hinv, he⟩ | ⟨hne, hok, he⟩ | ⟨hne, hbad, he⟩ <;> rw [he]
  · rw [show verifyWith p ((s.setBuf b).setStage g) = _ from if_pos hinv]
    exact sameVisible_record h _ _
  · rw [show verifyWith p ((s.setBuf b).setStage g) = _ from (if_neg hne).trans (if_pos hok)]
    exact sameVisible_record (hagree.sameVisible_setStream _ le_rfl le_rfl) _ _
  · rw [show verifyWith p ((s.setBuf b).setStage g) = _ from (if_neg hne).trans (if_neg (by simpa using hbad))]
    exact sameVisible_record (hagree.sameVisible_setStream _ le_rfl le_rfl) _ _

theorem hides_read (p : Params) : Hides p (readWith p) := by
  intro s u t h hs
  have hbytes := h.bufBytes
  obtain ⟨b, g, rfl⟩ := sameVisible_exists_bytes h
  rcases readWith_cases hs with ⟨hout, rfl⟩ | ⟨hin, x, hx, rfl⟩
  · exact ⟨_, if_pos hout, sameVisible_record h _ _⟩
  · refine ⟨_, ?_, sameVisible_record h _ _⟩
    have hx' := (hbytes _ hin).trans hx
    simp only [memRead_setStage] at hx'
    simp [readWith, not_le.2 hin, hx', finish_eq]

theorem hides_readt (p : Params) : Hides p (readtWith p) := by
  intro s u t h hs
  have hbytes := h.bufBytes
  obtain ⟨b, g, rfl⟩ := sameVisible_exists_bytes h
  rcases readtWith_cases hs with ⟨hout, rfl⟩ | ⟨hin, t0, t1, t2, h0, h1, h2, rfl⟩
  · exact ⟨_, if_pos hout, sameVisible_record h _ _⟩
  · refine ⟨_, ?_, sameVisible_record h _ _⟩
    simp only [memRead_setStage] at hbytes
    simp [readtWith, not_lt.2 hin, hbytes (3 * ix s.opa) (by omega), hbytes (3 * ix s.opa + 1) (by omega),
      hbytes (3 * ix s.opa + 2) (by omega), h0, h1, h2, finish_eq]

/-- The results of a decode depend on nothing of the state. -/
theorem finishDecoded_record (d : Decoded) : ∃ c r, ∀ s : State, finishDecoded d s = s.record c r := by
  cases d with
  | value S e => exact ⟨_, _, fun _ => rfl⟩
  | sentinel n => exact ⟨_, _, fun _ => rfl⟩

/-- R213: the results of a pure command are those of any state with the same operands. -/
theorem exec_pure_of_operands {i : Instr} (hi : isPure i = true) (ha : u.opa = s.opa) (hb : u.opb = s.opb) :
    ∃ c r, exec i s = .next (s.record c r) ∧ exec i u = .next (u.record c r) := by
  cases i <;> simp only [isPure, Bool.false_eq_true] at hi
  case crcGen => exact ⟨_, _, rfl, by simp only [exec, execCrcGen, ha]; rfl⟩
  case crcChk => exact ⟨_, _, rfl, by simp only [exec, execCrcChk, ha]; rfl⟩
  case valDec16 =>
    simp only [exec, execValDec16, p16, ha]
    obtain ⟨c, r, h⟩ := finishDecoded_record (dec16 (byteOf s.opa 1) (byteOf s.opa 0))
    exact ⟨c, r, by rw [h], by rw [h]⟩
  case valDec32 =>
    simp only [exec, execValDec32, w4, ha]
    obtain ⟨c, r, h⟩ := finishDecoded_record (dec32 (byteOf s.opa 3) (byteOf s.opa 2) (byteOf s.opa 1) (byteOf s.opa 0))
    exact ⟨c, r, by rw [h], by rw [h]⟩
  case valEnc32 =>
    simp only [exec, execValEnc32, ha, hb]
    cases enc32 (seS s.opa) (seE s.opb) with
    | none => exact ⟨_, _, rfl, rfl⟩
    | some w => exact ⟨_, _, rfl, rfl⟩
  case hdrEnc => exact ⟨_, _, rfl, by simp only [exec, execHdrEnc, ha]; rfl⟩
  case hdrDec =>
    have hu := execHdrDec_cases u
    rw [ha] at hu
    rcases execHdrDec_cases s with ⟨hbad, hs⟩ | ⟨hgood, hs⟩
    · rcases hu with ⟨-, hu⟩ | ⟨hgood, -⟩
      · exact ⟨_, _, hs, hu⟩
      · exact absurd hgood hbad
    · rcases hu with ⟨hbad, -⟩ | ⟨-, hu⟩
      · exact absurd hgood hbad
      · exact ⟨_, _, hs, hu⟩

theorem hides_pure (p : Params) {i : Instr} (hi : isPure i = true) : Hides p (exec i) := by
  intro s u t h hs
  obtain ⟨b, g, rfl⟩ := sameVisible_exists_bytes h
  obtain ⟨c, r, hs', hu⟩ := exec_pure_of_operands (u := (s.setBuf b).setStage g) (s := s) hi rfl rfl
  obtain rfl := Host.Outcome.next.inj (hs'.symm.trans hs)
  exact ⟨_, hu, sameVisible_record h c r⟩

/-- R49: no command shows a byte at LEN or SLEN or above. -/
theorem hides_exec (i : Instr) : Hides Config.chip (exec i) := by
  by_cases hpure : isPure i = true
  · exact hides_pure _ hpure
  · cases i <;> simp only [isPure, not_true_eq_false] at hpure
    case nop =>
      intro s u t h hs
      obtain rfl := Host.Outcome.next.inj hs
      exact ⟨u, rfl, h⟩
    case sInit => exact hides_init _
    case sPush => exact hides_push _
    case sAppend => exact hides_append _
    case sSetdata => exact hides_setdata _
    case sEncode => exact hides_encode _
    case sVerify => exact hides_verify _
    case sRead => exact hides_read _
    case sReadt => exact hides_readt _

theorem hides_runCommand (w : Word) : Hides Config.chip (runCommand w) := by
  intro s u t h hs
  simp only [runCommand] at hs ⊢
  split at hs
  · exact hides_exec _ s u t h hs
  · obtain rfl := Host.Outcome.next.inj hs
    exact ⟨_, rfl, sameVisible_record h _ _⟩

/-! ### Accesses -/

theorem readReg_setBytes (s : State) (b g : Memory) (r : Reg) :
    readReg ((s.setBuf b).setStage g) r = readReg s r := by
  cases r <;> rfl

theorem sameVisible_writeReg (h : SameVisible p s u) (r : Reg) (v : Word) :
    SameVisible p (writeReg s r v) (writeReg u r v) := by
  obtain ⟨b, g, rfl⟩ := sameVisible_exists_bytes h
  cases r <;> exact ⟨rfl, h.bufBytes, h.stageBytes⟩

/-- The same access to both starts the same command, and reads return the same (R62). -/
theorem sameVisible_takeInput (h : SameVisible p s u) (a : Input) :
    SameVisible p (takeInput a s).1 (takeInput a u).1 ∧ (takeInput a u).2 = (takeInput a s).2 := by
  have hwrite := sameVisible_writeReg h
  obtain ⟨b, g, rfl⟩ := sameVisible_exists_bytes h
  cases a with
  | read ix =>
    have hdata : readData ((s.setBuf b).setStage g) ix = readData s ix := by
      simp only [readData, readReg_setBytes]
      rfl
    simp only [takeInput, hdata]
    exact ⟨⟨rfl, h.bufBytes, h.stageBytes⟩, trivial⟩
  | write ix v =>
    by_cases hreset : s.resetAsserted = true
    · simpa [takeInput, hreset] using h
    · by_cases hcmd : regOfIndex ix = .cmd
      · simpa [takeInput, hreset, hcmd] using h
      · simpa [takeInput, hreset, hcmd] using hwrite (regOfIndex ix) v
  | assertReset =>
    exact ⟨⟨rfl, fun i hi => absurd hi (Nat.not_lt_zero i), fun i hi => absurd hi (Nat.not_lt_zero i)⟩, rfl⟩
  | releaseReset => exact ⟨⟨rfl, h.bufBytes, h.stageBytes⟩, rfl⟩

theorem sameVisible_inputs (h : SameVisible p s u) (inputs : List Input) :
    SameVisible p { s with inputs := inputs } { u with inputs := inputs } := by
  obtain ⟨b, g, rfl⟩ := sameVisible_exists_bytes h
  exact ⟨rfl, h.bufBytes, h.stageBytes⟩

/-- R254: no step shows a byte at LEN or SLEN or above. -/
theorem hides_step : Hides Config.chip step := by
  intro s u t h hs
  have hin : u.inputs = s.inputs := by rw [h.registers]
  have hreset : u.resetAsserted = s.resetAsserted := by rw [h.registers]
  rcases step_cases hs with ⟨hidle, rfl⟩ | ⟨a, rest, hnext, ha⟩ | ⟨w, rest, hnext, hreleased, hrun⟩
  · exact ⟨u, idleStepChangesNothing u (hin.trans hidle), h⟩
  · obtain ⟨hsame, hword⟩ := sameVisible_takeInput (sameVisible_inputs h rest) a
    rw [ha] at hsame hword
    exact ⟨_, step_of_access (hin.trans hnext) (Prod.ext rfl hword), hsame⟩
  · rw [Scope.step_writeCmd (hreset.trans hreleased) (hin.trans hnext)]
    exact hides_runCommand w _ _ _ (sameVisible_inputs h rest) hrun

/-- Settles O55, of every two states that look the same, safe or not. -/
theorem stepsHideTheUnobservableBytes : Obligations.StepsHideTheUnobservableBytes :=
  fun s u t _ _ h hs => hides_step s u t h hs

end Sys2Proof.BlockState
end

section
/-! PROOFS. The host's accesses (R62, R70, R71, 20_memory.md): what a step does with a read and with a write of each
register, and what a read sees of the access before it. -/

namespace Sys2Proof.HostAccess

open Sys2Proof.Machine

variable {s t u : State} {ix : RegIndex} {v w : Word} {rest : List Input}

/-! ### One access, one step -/

/-- The host's own lists are no register (log 1, log 2). -/
theorem readReg_host (s : State) (r : Reg) (inputs : List Input) (reads : List Word) :
    readReg { s with inputs := inputs, reads := reads } r = readReg s r := by
  cases r <;> rfl

/-- R62: a read with reset released returns the register of its index and changes nothing of the block. -/
theorem step_read (hreset : s.resetAsserted = false) :
    step { s with inputs := .read ix :: rest } =
      .next { s with inputs := rest, reads := readReg s (regOfIndex ix) :: s.reads } := by
  have hdata : readData { s with inputs := rest } ix = readReg s (regOfIndex ix) := by
    rw [readData, if_neg (by simp [hreset]), readReg_host]
  exact BlockState.step_of_access rfl (by simp only [takeInput, hdata])

/-- R62: a write of a register other than CMD, with reset released, starts no command. -/
theorem step_write (hreset : s.resetAsserted = false) (hcmd : regOfIndex ix ≠ .cmd) :
    step { s with inputs := .write ix v :: rest } = .next (writeReg { s with inputs := rest } (regOfIndex ix) v) :=
  BlockState.step_of_access rfl (by simp [takeInput, hreset, hcmd])

theorem step_writeOpa (hreset : s.resetAsserted = false) :
    step { s with inputs := .write 1#4 v :: rest } = .next { s with inputs := rest, opa := v } :=
  step_write hreset (by decide)

theorem step_writeOpb (hreset : s.resetAsserted = false) :
    step { s with inputs := .write 2#4 v :: rest } = .next { s with inputs := rest, opb := v } :=
  step_write hreset (by decide)

/-- R61, R62: no index from 3 upward is that of CMD, and a write of one is ignored. -/
theorem writeReg_of_three_le (hix : 3 ≤ ix.toNat) :
    regOfIndex ix ≠ .cmd ∧ writeReg s (regOfIndex ix) v = s := by
  unfold regOfIndex
  split
  case h_1 h0 | h_2 h0 | h_3 h0 => omega
  all_goals exact ⟨nofun, rfl⟩

/-- R201: a word that does not decode reports ERR_OPCODE. -/
theorem runCommand_of_error {e : Illegal} (h : decode w = .error e) (s : State) :
    runCommand w s = .next (raise .errOpcode {} s) := by
  rw [runCommand, h]
  rfl

/-- Settles O9: a read by `step_read`, each write by what `writeReg` or the command word does. -/
theorem hostAccessesReachTheNamedRegister : Obligations.HostAccessesReachTheNamedRegister := by
  intro s rest hreset
  refine ⟨fun ix => ?_, fun _ => step_writeOpa hreset, fun _ => step_writeOpb hreset, fun _ _ hix => ?_, fun w => ?_⟩
  · rw [step_read hreset, BitVec.ofNat_toNat, BitVec.ofNat_toNat, regOfIndex]
    match ix.toNat with
    | 0 | 1 | 2 | 3 | 4 | 5 | 6 | 7 | 8 | 9 | _ + 10 => rfl
  · obtain ⟨hcmd, hkept⟩ := writeReg_of_three_le hix
    rw [step_write hreset hcmd, hkept]
  · rw [Scope.step_writeCmd (s := { s with inputs := .write 0#4 w :: rest }) hreset rfl]
    cases hw : decode w with
    | ok i => exact Scope.runCommand_of_decode hw _
    | error e => exact runCommand_of_error hw _

/-! ### Two accesses in a row -/

theorem run_two (hs : step s = .next t) (ht : step t = .next u) : core.run 2 s = .next u := by
  have hs' : core.step s = .next t := hs
  have ht' : core.step t = .next u := ht
  simp only [Host.Core.run, hs', ht']

/-- R70: two reads in a row return the same value. -/
theorem run_read_read (hreset : s.resetAsserted = false) :
    core.run 2 { s with inputs := .read ix :: .read ix :: rest } =
      .next { s with
        inputs := rest
        reads := readReg s (regOfIndex ix) :: readReg s (regOfIndex ix) :: s.reads } := by
  have hsecond := step_read (s := { s with reads := readReg s (regOfIndex ix) :: s.reads }) (ix := ix) (rest := rest)
    hreset
  rw [readReg_host] at hsecond
  exact run_two (step_read hreset) hsecond

/-- Settles O11: a read changes no register, and a write of an operand stores what the next read returns. -/
theorem readsAreStableAndSeeTheLatestWrite : Obligations.ReadsAreStableAndSeeTheLatestWrite := fun s _ v _ hreset =>
  ⟨⟨_, run_read_read hreset⟩, run_two (step_writeOpa hreset) (step_read (s := { s with opa := v }) hreset),
    run_two (step_writeOpb hreset) (step_read (s := { s with opb := v }) hreset)⟩

end Sys2Proof.HostAccess
end

section
/-! PROOFS. The command words of 30_encoding.md: the two fields of a word (R80), the decoder and the encoder as
inverses (R81, R85), the words that decode (R86), and what an illegal word does (R201). -/

namespace Sys2Proof.Encoding

open Sys2Proof.Machine Sys2Proof.Safety

variable {w : Word} {op : Byte} {i : Instr}

/-! ### The fields Z and OP of a word -/

/-- R8: the number a statement reads from a word is that of the model's own field. -/
theorem bitsAt_eq_toNat_extractLsb' (w : Word) (lo n : Nat) : bitsAt w lo n = (w.extractLsb' lo n).toNat := by
  rw [bitsAt, BitVec.extractLsb'_toNat, Nat.shiftRight_eq_div_pow]

theorem zClear_iff : zClear w = true ↔ w.extractLsb' 8 24 = 0#24 := beq_iff_eq

/-- R80: a command's word is the one with Z = 0 and its opcode in OP. -/
theorem eq_encode_iff : w = encode i ↔ zClear w = true ∧ w.extractLsb' 0 8 = opcodeOf i := by
  rw [zClear_iff]
  constructor
  · rintro rfl
    exact ⟨BitVec.extractLsb'_append_eq_left, BitVec.extractLsb'_append_eq_right⟩
  · rintro ⟨hz, hop⟩
    calc w = w.extractLsb' 8 24 ++ w.extractLsb' 0 8 :=
          (BitVec.extractLsb'_append_extractLsb' (len := 8) (w := 24) (x := w)).symm
      _ = encode i := by rw [hz, hop, encode]

/-! ### The opcode map -/

/-- R85: the map's rows, read from opcode to command and from command to opcode, are the same rows. -/
theorem commandOf_eq_some_iff : commandOf op = some i ↔ op = opcodeOf i := by
  constructor
  · intro h
    unfold commandOf at h
    split at h
    case h_17 => cases h
    all_goals
      obtain rfl := Option.some.inj h
      exact BitVec.eq_of_toNat_eq ‹_›
  · rintro rfl
    cases i <;> rfl

/-- R85, R86: the map has a row for an opcode outside the four ranges, and for no other, by looking at each opcode. -/
theorem commandOf_isSome : ∀ op : Byte, (commandOf op).isSome = listedOpcode op := by
  decide

/-! ### Decoding -/

/-- R81: a word is a command if its Z is zero and the map has that command for its OP. -/
theorem decode_eq_ok_iff : decode w = .ok i ↔ zClear w = true ∧ commandOf (w.extractLsb' 0 8) = some i := by
  rw [zClear_iff, decode]
  split
  next hz => simp [hz]
  next hz =>
    cases commandOf (w.extractLsb' 0 8) with
    | none => simp
    | some j => simp [not_not.1 hz]

theorem decode_eq_ok_iff_eq_encode : decode w = .ok i ↔ w = encode i := by
  rw [decode_eq_ok_iff, commandOf_eq_some_iff, eq_encode_iff]

theorem decode_encode (i : Instr) : decode (encode i) = .ok i :=
  decode_eq_ok_iff_eq_encode.2 rfl

/-- R86: the words that decode are those that the four ranges and Z leave. -/
theorem exists_decode_iff : (∃ i, decode w = .ok i) ↔ wellFormedWord w = true := by
  simp only [decode_eq_ok_iff, exists_and_left, ← Option.isSome_iff_exists, commandOf_isSome, wellFormedWord,
    Bool.and_eq_true]

/-- Settles O14: both directions are `decode_eq_ok_iff_eq_encode`, and `exists_decode_iff` says which words decode. -/
theorem decodeAndEncodeAreInverse : Obligations.DecodeAndEncodeAreInverse :=
  ⟨fun i _ => decode_encode i, fun _ _ => decode_eq_ok_iff_eq_encode.1, fun _ => exists_decode_iff⟩

/-- Settles O15: each word of the list is its command's `encode`, by evaluation. -/
theorem opcodeMapWordsDecode : Obligations.OpcodeMapWordsDecode :=
  ⟨decode_encode .nop, decode_encode .crcGen, decode_encode .crcChk, decode_encode .valDec16, decode_encode .valDec32,
    decode_encode .valEnc32, decode_encode .hdrEnc, decode_encode .hdrDec, decode_encode .sInit, decode_encode .sPush,
    decode_encode .sAppend, decode_encode .sSetdata, decode_encode .sEncode, decode_encode .sVerify,
    decode_encode .sRead, decode_encode .sReadt⟩

/-! ### Illegal words -/

theorem zClear_eq_false_iff : zClear w = false ↔ bitsAt w 8 24 ≠ 0 := by
  rw [← Bool.not_eq_true, zClear_iff, bitsAt_eq_toNat_extractLsb', ← BitVec.toNat_inj, BitVec.toNat_ofNat]

/-- R86: the four ranges of unassigned opcodes. -/
theorem listedOpcode_eq_false_iff : listedOpcode op = false ↔
    (0x03 ≤ op.toNat ∧ op.toNat ≤ 0x0F) ∨ (0x13 ≤ op.toNat ∧ op.toNat ≤ 0x1F) ∨
      (0x22 ≤ op.toNat ∧ op.toNat ≤ 0x2F) ∨ (0x38 ≤ op.toNat ∧ op.toNat ≤ 0xFF) := by
  simp only [listedOpcode, Bool.not_eq_false', Bool.or_eq_true, Bool.and_eq_true, decide_eq_true_eq, or_assoc]

/-- R81, R201: a word that is not well formed is no command, so it performs the illegal word's rule. -/
theorem runCommand_of_not_wellFormed (h : wellFormedWord w = false) (s : State) :
    runCommand w s = .next (raise .errOpcode {} s) := by
  cases hd : decode w with
  | ok i => exact absurd (exists_decode_iff.1 ⟨i, hd⟩) (by simp [h])
  | error e => exact HostAccess.runCommand_of_error hd s

/-- Settles O13: the words named are those that are not well formed. -/
theorem illegalWordsReportErrOpcode : Obligations.IllegalWordsReportErrOpcode := by
  intro s w h
  rw [← zClear_eq_false_iff, bitsAt_eq_toNat_extractLsb', ← listedOpcode_eq_false_iff,
    ← Bool.and_eq_false_iff] at h
  exact runCommand_of_not_wellFormed h s

end Sys2Proof.Encoding
end

section
/-! PROOFS. The CRC of 40_crc.md: its accumulator as a number (R100), as long division over GF(2) (R103), as a byte
register that loses nothing (R104), and the two commands that leave it in the results (R101, R102). -/

namespace Sys2Proof.Crc

open Sys2Proof.Machine Sys2Proof.Safety

/-! ### The accumulator -/

theorem crcIter_eq_iterate (n : Nat) (acc : Half) : crcIter n acc = crcStep^[n] acc := by
  induction n generalizing acc with
  | zero => rfl
  | succ n ih => exact ih (crcStep acc)

theorem toNat_append_bytes (hi lo : Byte) : (hi ++ lo).toNat = hi.toNat * 256 + lo.toNat := by
  rw [BitVec.toNat_append, ← Nat.shiftLeft_add_eq_or_of_lt lo.isLt, Nat.shiftLeft_eq]

/-- R100: the accumulator starts with the first byte above the second, and its high byte is complemented at the end. -/
theorem crc8_eq (b1 b2 : Byte) : crc8 b1 b2 = not8 ((crcIter 16 (b1 ++ b2)).extractLsb' 8 8) := by
  have hjoin : (b1.setWidth 16 <<< 8) ||| b2.setWidth 16 = b1 ++ b2 := by
    apply BitVec.eq_of_toNat_eq
    rw [toNat_append_bytes]
    exact Scope.toNat_shiftLeft_or b1 b2
  rw [crc8, hjoin]

/-- A shift, and the XOR that the bit shifted out decides. -/
theorem crcStep_eq_xor (acc : Half) :
    crcStep acc = (acc <<< 1) ^^^ (if acc.getLsbD 15 then 0x0700#16 else 0#16) := by
  rw [crcStep]
  split
  · rfl
  · rw [BitVec.xor_zero]

theorem getLsbD_top_iff (acc : Half) : acc.getLsbD 15 = true ↔ 2 ^ 15 ≤ acc.toNat := by
  rw [← BitVec.msb_eq_getLsbD_last, BitVec.msb_eq_decide, decide_eq_true_eq]

/-! ### The accumulator as a number (R100) -/

/-- R100: one iteration, on a number. -/
def numStep (acc : Nat) : Nat := if 2 ^ 15 ≤ acc then (acc * 2 % 2 ^ 16) ^^^ 0x0700 else acc * 2 % 2 ^ 16

theorem toNat_crcStep (acc : Half) : (crcStep acc).toNat = numStep acc.toNat := by
  have hshift : (acc <<< 1).toNat = acc.toNat * 2 % 2 ^ 16 := by
    rw [BitVec.toNat_shiftLeft, Nat.shiftLeft_eq]
  simp only [crcStep, numStep, getLsbD_top_iff]
  split
  · rw [BitVec.toNat_xor, hshift]; rfl
  · exact hshift

theorem toNat_crcIter (n : Nat) (acc : Half) : (crcIter n acc).toNat = numStep^[n] acc.toNat := by
  rw [crcIter_eq_iterate]
  exact (Function.Semiconj.iterate_right toNat_crcStep n) acc

/-- Settles O25: the accumulator follows its number through the sixteen iterations. -/
theorem crcIsTheSixteenStepAccumulator : Obligations.CrcIsTheSixteenStepAccumulator := by
  intro b1 b2
  have hhigh (acc : Half) : (acc.extractLsb' 8 8).toNat = acc.toNat / 256 := by
    rw [BitVec.extractLsb'_toNat, Nat.shiftRight_eq_div_pow]
    omega
  rw [crc8_eq, Scope.toNat_not8, hhigh, toNat_crcIter, toNat_append_bytes]
  rfl

/-! ### The accumulator as a dividend over GF(2) (R103) -/

/-- The bit shifted out and 0x0700 below it make up the divisor 0x107, eight places up: no bit is lost by the crop. -/
theorem toNat_crcStep_uncropped (acc : Half) :
    (crcStep acc).toNat = if acc.getLsbD 15 then (acc.toNat <<< 1) ^^^ (0x107 <<< 8) else acc.toNat <<< 1 := by
  have hlt := acc.isLt
  simp only [toNat_crcStep, numStep, getLsbD_top_iff, Nat.shiftLeft_eq acc.toNat, pow_one]
  split
  case isTrue htop =>
    have hcarry : (acc.toNat * 2 ^^^ 0x107 <<< 8) / 2 ^ 16 = 0 := by
      rw [Nat.xor_div_two_pow, show acc.toNat * 2 / 2 ^ 16 = 1 by omega]
      rfl
    rw [← Nat.mod_eq_of_lt (Nat.lt_of_div_eq_zero (by decide) hcarry), Nat.xor_mod_two_pow]
    rfl
  case isFalse hlow => exact Nat.mod_eq_of_lt (by omega)

theorem toNat_cancelTerm {n : Nat} (hn : n < 16) (v : BitVec 24) :
    (cancelTerm n v).toNat = if v.getLsbD (n + 8) then v.toNat ^^^ (0x107 <<< n) else v.toNat := by
  have hfits : (0x107 : Nat) <<< n < 2 ^ 24 := by
    rw [Nat.shiftLeft_eq]
    calc 0x107 * 2 ^ n ≤ 0x107 * 2 ^ 15 := Nat.mul_le_mul_left _ (Nat.pow_le_pow_right (by decide) (by omega))
      _ < 2 ^ 24 := by decide
  rw [cancelTerm]
  split
  · rw [BitVec.toNat_xor, BitVec.toNat_shiftLeft]
    exact congrArg (v.toNat ^^^ ·) (Nat.mod_eq_of_lt hfits)
  · rfl

/-- If `acc·x^(n+1) = v·x^8`, then one iteration on `acc` cancels the term `x^(n+8)` of `v`. -/
theorem crcStep_cancels {n : Nat} (hn : n < 16) {acc : Half} {v : BitVec 24}
    (h : acc.toNat <<< (n + 1) = v.toNat <<< 8) : (crcStep acc).toNat <<< n = (cancelTerm n v).toNat <<< 8 := by
  have hbit : acc.getLsbD 15 = v.getLsbD (n + 8) := by
    have := congrArg (Nat.testBit · (n + 16)) h
    simpa [Nat.testBit_shiftLeft, BitVec.testBit_toNat] using this
  rw [toNat_crcStep_uncropped, toNat_cancelTerm hn, hbit]
  rw [Nat.add_comm, Nat.shiftLeft_add] at h
  split
  · rw [Nat.shiftLeft_xor_distrib, Nat.shiftLeft_xor_distrib, h, ← Nat.shiftLeft_add, ← Nat.shiftLeft_add,
      Nat.add_comm]
  · exact h

/-- The rounds left on the accumulator are the terms left to cancel. -/
theorem toNat_crcIter_eq_gf2Rem {n : Nat} (hn : n ≤ 16) {acc : Half} {v : BitVec 24}
    (h : acc.toNat <<< n = v.toNat <<< 8) : (crcIter n acc).toNat = (gf2Rem n v).toNat <<< 8 := by
  induction n generalizing acc v with
  | zero => exact h
  | succ n ih => exact ih (by omega) (crcStep_cancels (by omega) h)

/-- Settles O26: the accumulator starts as the dividend over x^8 and ends as the remainder times x^8. -/
theorem crcIsThePolynomialRemainder : Obligations.CrcIsThePolynomialRemainder := by
  intro b1 b2
  have hstart : (b1 ++ b2).toNat <<< 16 = (b1 ++ b2 ++ 0#8).toNat <<< 8 := by
    rw [BitVec.toNat_append _ 0#8, BitVec.toNat_ofNat, Nat.zero_mod, Nat.or_zero, ← Nat.shiftLeft_add]
  have hend := toNat_crcIter_eq_gf2Rem le_rfl hstart
  have hhigh : (crcIter 16 (b1 ++ b2)).extractLsb' 8 8 = (gf2Rem 16 (b1 ++ b2 ++ 0#8)).setWidth 8 := by
    apply BitVec.eq_of_toNat_eq
    rw [BitVec.extractLsb'_toNat, hend, Nat.shiftLeft_shiftRight, BitVec.toNat_setWidth]
  rw [crc8_eq, hhigh, Scope.not8_eq_complement, ← BitVec.xor_allOnes]
  rfl

/-! ### The accumulator as a byte register (R104) -/

/-- One iteration on the high byte of an accumulator whose low byte is 0. -/
def byteStep (r : Byte) : Byte := (r <<< 1) ^^^ (if r.msb then 0x07#8 else 0#8)

theorem byteStep_bit_zero (r : Byte) : (byteStep r).getLsbD 0 = r.msb := by
  cases h : r.msb <;> simp [byteStep, h]

/-- Bit 0 of the result is the bit shifted out, so nothing is lost. -/
theorem byteStep_injective : Function.Injective byteStep := by
  intro r r' h
  have hmsb : r.msb = r'.msb := by rw [← byteStep_bit_zero, h, byteStep_bit_zero]
  have hshift : r <<< 1 = r' <<< 1 := by
    rwa [byteStep, byteStep, hmsb, BitVec.xor_left_inj] at h
  rw [BitVec.msb_eq_decide, BitVec.msb_eq_decide, decide_eq_decide] at hmsb
  bv_omega

/-- An iteration is linear over GF(2). -/
theorem crcStep_xor (a b : Half) : crcStep (a ^^^ b) = crcStep a ^^^ crcStep b := by
  have hfeed : ∀ x y : Bool, (if x ^^ y then 0x0700#16 else 0#16) =
      (if x then 0x0700#16 else 0#16) ^^^ (if y then 0x0700#16 else 0#16) := by decide
  rw [crcStep_eq_xor, crcStep_eq_xor, crcStep_eq_xor, BitVec.shiftLeft_xor_distrib, BitVec.getLsbD_xor, hfeed]
  ac_rfl

theorem crcIter_xor (n : Nat) (a b : Half) : crcIter n (a ^^^ b) = crcIter n a ^^^ crcIter n b := by
  induction n generalizing a b with
  | zero => rfl
  | succ n ih => exact (congrArg (crcIter n) (crcStep_xor a b)).trans (ih _ _)

theorem crcStep_append_zero (r : Byte) : crcStep (r ++ 0#8) = byteStep r ++ 0#8 := by
  have htop : (r ++ 0#8).getLsbD 15 = r.msb := by
    rw [BitVec.msb_eq_getLsbD_last, BitVec.getLsbD_append]
    rfl
  have hshift : (r ++ 0#8) <<< 1 = (r <<< 1) ++ 0#8 := by
    apply BitVec.eq_of_toNat_eq
    simp only [BitVec.toNat_shiftLeft, toNat_append_bytes, Nat.shiftLeft_eq, BitVec.toNat_ofNat]
    omega
  have hfeed : (if r.msb then 0x0700#16 else 0#16) = (if r.msb then 0x07#8 else 0#8) ++ 0#8 := by
    cases r.msb <;> rfl
  rw [crcStep_eq_xor, htop, hshift, hfeed, BitVec.xor_append, BitVec.xor_zero, byteStep]

theorem crcIter_append_zero (n : Nat) (r : Byte) : crcIter n (r ++ 0#8) = byteStep^[n] r ++ 0#8 := by
  rw [crcIter_eq_iterate]
  exact (Function.Semiconj.iterate_right (f := (· ++ 0#8)) (fun r => (crcStep_append_zero r).symm) n r).symm

/-- While the bits shifted out are 0, the iterations only shift. -/
theorem toNat_crcIter_of_lt {n : Nat} {acc : Half} (h : acc.toNat * 2 ^ n < 2 ^ 16) :
    (crcIter n acc).toNat = acc.toNat * 2 ^ n := by
  induction n generalizing acc with
  | zero => exact (Nat.mul_one _).symm
  | succ n ih =>
    rw [pow_succ', ← mul_assoc] at h ⊢
    have hlow : acc.toNat * 2 < 2 ^ 16 := (Nat.le_mul_of_pos_right _ (Nat.two_pow_pos n)).trans_lt h
    have hstep : (crcStep acc).toNat = acc.toNat * 2 := by
      rw [toNat_crcStep, numStep, if_neg (by omega), Nat.mod_eq_of_lt hlow]
    rw [← hstep] at h ⊢
    exact ih h

theorem crcIter_zero_append (b : Byte) : crcIter 8 (0#8 ++ b) = b ++ 0#8 := by
  have hb : (0#8 ++ b).toNat = b.toNat := by
    rw [toNat_append_bytes]
    exact Nat.zero_add _
  apply BitVec.eq_of_toNat_eq
  rw [toNat_crcIter_of_lt (by rw [hb]; omega), hb, toNat_append_bytes]
  exact (Nat.add_zero _).symm

/-- R100 by bytes: eight iterations on the first byte, the second byte added in, and eight more. -/
theorem crc8_eq_byteStep (b1 b2 : Byte) : crc8 b1 b2 = not8 (byteStep^[8] (byteStep^[8] b1 ^^^ b2)) := by
  have hsplit : b1 ++ b2 = (b1 ++ 0#8) ^^^ (0#8 ++ b2) := by
    rw [BitVec.xor_append, BitVec.xor_zero, BitVec.zero_xor]
  have hfirst : crcIter 8 (b1 ++ b2) = (byteStep^[8] b1 ^^^ b2) ++ 0#8 := by
    rw [hsplit, crcIter_xor, crcIter_append_zero, crcIter_zero_append, BitVec.xor_append, BitVec.xor_zero]
  have hboth : crcIter 16 (b1 ++ b2) = byteStep^[8] (byteStep^[8] b1 ^^^ b2) ++ 0#8 :=
    calc crcIter 16 (b1 ++ b2) = crcIter 8 (crcIter 8 (b1 ++ b2)) := rfl
      _ = _ := by rw [hfirst, crcIter_append_zero]
  rw [crc8_eq, hboth, BitVec.extractLsb'_append_eq_left]

theorem not8_injective : Function.Injective not8 := by
  intro x y h
  rwa [Scope.not8_eq_complement, Scope.not8_eq_complement, BitVec.not_inj] at h

/-- R104: with one first byte, different second bytes have different CRCs. -/
theorem crc8_second_injective (b1 : Byte) : Function.Injective (crc8 b1) := by
  intro b2 b2' h
  rw [crc8_eq_byteStep, crc8_eq_byteStep] at h
  exact (BitVec.xor_right_inj _).1 (byteStep_injective.iterate 8 (not8_injective h))

/-- R104: with one second byte, different first bytes have different CRCs. -/
theorem crc8_first_injective (b2 : Byte) : Function.Injective (crc8 · b2) := by
  intro b1 b1' h
  simp only [crc8_eq_byteStep] at h
  exact byteStep_injective.iterate 8 ((BitVec.xor_left_inj _).1 (byteStep_injective.iterate 8 (not8_injective h)))

theorem xor_bit_ne (b : Byte) {k : Nat} (hk : k < 8) : b ^^^ (1#8 <<< k) ≠ b := by
  intro h
  have hbit := congrArg (·.getLsbD k) h
  simp [hk] at hbit

/-- Settles O27: crc8 is injective in each byte, and a flipped bit makes another byte. -/
theorem crcDetectsEverySingleBitError : Obligations.CrcDetectsEverySingleBitError :=
  ⟨fun b1 b2 _ hk =>
      ⟨(crc8_first_injective b2).ne (xor_bit_ne b1 hk), (crc8_second_injective b1).ne (xor_bit_ne b2 hk)⟩,
    fun b1 => Finite.injective_iff_bijective.1 (crc8_second_injective b1)⟩

/-! ### The commands CRC.GEN and CRC.CHK (R101, R102) -/

/-- R8: a byte of a register, by arithmetic. -/
theorem toNat_byteOf (w : Word) (k : Nat) : (byteOf w k).toNat = bitsAt w (8 * k) 8 :=
  (Encoding.bitsAt_eq_toNat_extractLsb' w (8 * k) 8).symm

theorem ofNat_bitsAt (w : Word) (k : Nat) : BitVec.ofNat 8 (bitsAt w (8 * k) 8) = byteOf w k := by
  rw [← toNat_byteOf, BitVec.ofNat_toNat, BitVec.setWidth_eq]

theorem ofNat_toNat_eq_zext8 (b : Byte) : BitVec.ofNat 32 b.toNat = zext8 b := BitVec.ofNat_toNat _ _

/-- Settles O28: the bytes of the operand, and what `finish` records. -/
theorem crcGenWritesTheCrcOfThePair : Obligations.CrcGenWritesTheCrcOfThePair := by
  intro s
  rw [ofNat_bitsAt s.opa 1, ofNat_bitsAt s.opa 0, ofNat_toNat_eq_zext8]
  rfl

/-- Settles O29: the same, and two bytes are equal when their numbers are. -/
theorem crcChkComparesAndReportsBoth : Obligations.CrcChkComparesAndReportsBoth := by
  intro s
  rw [ofNat_bitsAt s.opa 2, ofNat_bitsAt s.opa 1, ← toNat_byteOf s.opa 0]
  simp only [ofNat_toNat_eq_zext8, BitVec.toNat_inj, ← beq_eq_decide]
  rfl

end Sys2Proof.Crc
end

section
/-! PROOFS. The statements of 41_value.md: both decoders (R121, R122, R125 to R127), the encoder (R130, R131) and the
round trip (R132), in integer arithmetic. -/

namespace Sys2Proof.Value

open Sys2Proof.Machine Sys2Proof.Safety

/-! ### What the three commands share -/

/-- R14, R120: an exponent that fits 8 bits keeps its value in REXP. -/
theorem sext8_crop8 {e : Int} (hlow : -128 ≤ e) (hhigh : e < 128) : sext8 (crop8 e) = BitVec.ofInt 32 e := by
  have hfits : (crop8 e).toInt = e := by
    rw [crop8, BitVec.toInt_ofInt]
    exact Int.bmod_eq_of_le (by omega) (by omega)
  rw [sext8, BitVec.signExtend, hfits]

theorem finishDecoded_value {e : Int} (hlow : -128 ≤ e) (hhigh : e < 128) (S : Int) (s : State) :
    finishDecoded (.value S e) s = s.record .ok { res0 := BitVec.ofInt 32 S, rexp := BitVec.ofInt 32 e } := by
  rw [← sext8_crop8 hlow hhigh]
  rfl

theorem bitsAt_lt (w : Word) (lo n : Nat) : bitsAt w lo n < 2 ^ n := Nat.mod_lt _ (Nat.two_pow_pos n)

theorem toNat_conv16 (a b : Byte) : (conv16 a b).toNat = (255 - a.toNat) * 256 + b.toNat :=
  Scope.pairsAreBigEndianWithFirstByteComplemented.1 a b

theorem toNat_conv32 (hi lo : Half) : (conv32 hi lo).toNat = hi.toNat * 65536 + lo.toNat :=
  Scope.pairsAreBigEndianWithFirstByteComplemented.2 hi lo

/-! ### VAL.DEC16 (R121, R122) -/

/-- R121: the two fields of the raw 16-bit word, by arithmetic. -/
theorem toNat_fields16 (raw : Half) :
    ((raw &&& 0xC000#16) >>> 14).toNat = raw.toNat / 2 ^ 14 ∧ (raw &&& 0x3FFF#16).toNat = raw.toNat % 2 ^ 14 := by
  constructor
  · have htop : raw.toNat >>> 14 % 2 ^ 2 = raw.toNat / 2 ^ 14 := by
      rw [Nat.shiftRight_eq_div_pow]
      omega
    rw [BitVec.toNat_ushiftRight, BitVec.toNat_and, Nat.shiftRight_and_distrib, ← htop]
    exact Nat.and_two_pow_sub_one_eq_mod _ 2
  · rw [BitVec.toNat_and]
    exact Nat.and_two_pow_sub_one_eq_mod _ 14

/-- R121 and R122 on numbers: the upper bound of the sentinel range is the largest 14-bit value. -/
theorem dec16_eq (a b : Byte) :
    let raw := (255 - a.toNat) * 256 + b.toNat
    let m := raw % 2 ^ 14
    dec16 a b = if 0x3FE0 ≤ m then .sentinel (m - 16352) else .value ((m : Int) - 2048) (raw / 2 ^ 14 : Nat) := by
  intro raw m
  have hm : m ≤ 0x3FFF := by omega
  obtain ⟨hexp, hmant⟩ := toNat_fields16 (conv16 a b)
  rw [toNat_conv16] at hexp hmant
  simp only [dec16, hexp, hmant]
  exact if_congr (and_iff_left hm) rfl rfl

/-- Settles O30: `dec16_eq` gives the branch, and the 2-bit exponent fits REXP. -/
theorem dec16GivesValueOrSentinel : Obligations.Dec16GivesValueOrSentinel := by
  intro s raw m
  have hdec : dec16 (byteOf s.opa 1) (byteOf s.opa 0) =
      if 0x3FE0 ≤ m then .sentinel (m - 16352) else .value ((m : Int) - 2048) (raw / 2 ^ 14 : Nat) := by
    rw [dec16_eq, Crc.toNat_byteOf, Crc.toNat_byteOf]
  have hexec : exec .valDec16 s = .next (finishDecoded (dec16 (byteOf s.opa 1) (byteOf s.opa 0)) s) := rfl
  rw [hexec, hdec]
  split
  · rfl
  · have hlow := bitsAt_lt s.opa 0 8
    have hexp : raw / 2 ^ 14 < 4 := by omega
    rw [finishDecoded_value (by omega) (by omega), BitVec.ofInt_natCast]
    rfl

/-! ### VAL.DEC32 (R125 to R127) -/

/-- R125: the raw 32-bit word of four pair bytes, as a number: the first byte of each pair is complemented. -/
def rawNum (w : Word) : Nat :=
  (255 - bitsAt w 24 8) * 2 ^ 24 + bitsAt w 16 8 * 2 ^ 16 + (255 - bitsAt w 8 8) * 2 ^ 8 + bitsAt w 0 8

/-- R126: the value that a 27-bit field stands for. -/
def fieldValue (m : Nat) : Int := if m < 0x04000000 then (m : Int) + 33554432 else (m : Int) - 100663296

/-- R126, R127: what a 27-bit field decodes to under the exponent `e`. -/
def fieldDecoded (m : Nat) (e : Int) : Decoded :=
  if 0x07F5E100 ≤ m then .sentinel (m - 0x07F5E100) else .value (fieldValue m) e

theorem toNat_conv32_conv16 (w : Word) :
    (conv32 (conv16 (byteOf w 3) (byteOf w 2)) (conv16 (byteOf w 1) (byteOf w 0))).toNat = rawNum w := by
  simp only [toNat_conv32, toNat_conv16, Crc.toNat_byteOf, rawNum, Nat.reduceMul]
  omega

theorem toNat_low27 (w : Word) : (w &&& 0x07FFFFFF#32).toNat = w.toNat % 2 ^ 27 := by
  rw [BitVec.toNat_and]
  exact Nat.and_two_pow_sub_one_eq_mod _ 27

/-- R125: the exponent is in the top five bits of the raw word. -/
theorem toNat_expField (w : Word) : ((0xFF#8 - byteOf w 3) >>> 3).toNat = rawNum w / 2 ^ 27 := by
  have hnot : (0xFF#8 - byteOf w 3).toNat = 255 - bitsAt w 24 8 :=
    (Scope.toNat_not8 _).trans (congrArg (255 - ·) (Crc.toNat_byteOf w 3))
  rw [BitVec.toNat_ushiftRight, hnot, Nat.shiftRight_eq_div_pow, rawNum]
  simp only [bitsAt]
  omega

/-- R125, step 4a: below 2^26 bit 26 is clear, and from there it is set. -/
theorem toNat_extend27 {m : Word} (hm : m.toNat < 2 ^ 27) :
    (extend27 m).toNat = if m.toNat < 0x04000000 then m.toNat else m.toNat + 0xF8000000 := by
  have hbit : m &&& 0x04000000#32 = 0x04000000#32 ↔ ¬ m.toNat < 0x04000000 := by
    have hand : (m &&& 0x04000000#32).toNat = 2 ^ 26 * (m.toNat / 2 ^ 26 % 2) := by
      rw [BitVec.toNat_and, BitVec.toNat_ofNat, show 0x04000000 % 2 ^ 32 = 2 ^ 26 from rfl, Nat.and_two_pow,
        Nat.toNat_testBit, Nat.mul_comm]
    rw [← BitVec.toNat_inj, hand, BitVec.toNat_ofNat]
    omega
  have hor : (m ||| 0xF8000000#32).toNat = m.toNat + 0xF8000000 := by
    rw [BitVec.toNat_or, Nat.or_comm, Nat.add_comm]
    exact (Nat.shiftLeft_add_eq_or_of_lt hm 31).symm
  simp only [extend27, hbit, ite_not]
  split
  · rfl
  · exact hor

/-- R126: sign extension and the wrapping addition come to the closed form. -/
theorem toS32_extend27_add {m : Word} (hm : m.toNat < 2 ^ 27) :
    toS32 (extend27 m + 0x02000000#32) = fieldValue m.toNat := by
  rw [Scope.signedReinterpretationRoundTrips.1, BitVec.toNat_add, toNat_extend27 hm, BitVec.toNat_ofNat, fieldValue]
  split <;> split <;> omega

/-- R125 on numbers. -/
theorem dec32_eq (w : Word) : dec32 (byteOf w 3) (byteOf w 2) (byteOf w 1) (byteOf w 0) =
    fieldDecoded (rawNum w % 2 ^ 27) (((rawNum w / 2 ^ 27 : Nat) : Int) - 15) := by
  have hm := toNat_low27 (conv32 (conv16 (byteOf w 3) (byteOf w 2)) (conv16 (byteOf w 1) (byteOf w 0)))
  rw [toNat_conv32_conv16] at hm
  have hlt : rawNum w % 2 ^ 27 < 2 ^ 27 := Nat.mod_lt _ (by decide)
  have hthreshold : rawNum w % 2 ^ 27 < 100000000 + 0x02000000 ↔ ¬ 0x07F5E100 ≤ rawNum w % 2 ^ 27 := by omega
  simp only [dec32, toNat_expField]
  rw [toS32_extend27_add (hm ▸ hlt), hm, Nat.sub_sub]
  simp only [hthreshold, ite_not, fieldDecoded]

theorem rawNum_lt (w : Word) : rawNum w < 2 ^ 32 := by
  rw [← toNat_conv32_conv16]
  exact BitVec.isLt _

/-- R125: VAL.DEC32 decodes the two fields of the raw word, whatever the state. -/
theorem exec_valDec32 (s : State) : exec .valDec32 s = .next (finishDecoded
    (fieldDecoded (rawNum s.opa % 2 ^ 27) (((rawNum s.opa / 2 ^ 27 : Nat) : Int) - 15)) s) := by
  rw [← dec32_eq]
  rfl

/-- Settles O31: `dec32_eq` gives the branch, and the exponent, within -15 to 16, fits REXP. -/
theorem dec32GivesValueOrSentinel : Obligations.Dec32GivesValueOrSentinel := by
  intro s raw m
  have hraw : raw < 2 ^ 32 := rawNum_lt s.opa
  have hdec : exec .valDec32 s = .next (finishDecoded (fieldDecoded m (((raw / 2 ^ 27 : Nat) : Int) - 15)) s) :=
    exec_valDec32 s
  rw [hdec, fieldDecoded]
  split
  · rfl
  · rw [finishDecoded_value (by omega) (by omega)]
    rfl

/-! ### VAL.ENC32 (R130, R131) -/

theorem getLsbD_eq_true_iff (w : Word) (k : Nat) : w.getLsbD k = true ↔ w.toNat / 2 ^ k % 2 = 1 := by
  rw [BitVec.getLsbD, Nat.testBit_eq_decide_div_mod_eq, decide_eq_true_eq]

/-- R82, layout SE: the exponent, by arithmetic. -/
theorem seE_eq_bitsAt (opb : Word) : seE opb = (bitsAt opb 0 8 : Int) - 256 * (bitsAt opb 7 1 : Int) := by
  simp only [seE, Crc.toNat_byteOf, getLsbD_eq_true_iff, bitsAt]
  split <;> omega

/-- R82, layout SE: the exponent is the signed reading of the low byte of OPB. -/
theorem seE_eq_toInt (opb : Word) : seE opb = (byteOf opb 0).toInt := by
  rw [seE_eq_bitsAt, BitVec.toInt_eq_toNat_cond, Crc.toNat_byteOf]
  simp only [bitsAt]
  omega

/-- R130: the masked word of the register number `n`. -/
def maskNum (n : Nat) : Nat :=
  let t := (n + (2 ^ 32 - 0x02000000)) % 2 ^ 32
  if t / 2 ^ 26 % 2 = 1 then t % 2 ^ 27 else t

theorem toNat_encMask (u : Word) : (encMask (toS32 u)).toNat = maskNum u.toNat := by
  have ht : (u - 0x02000000#32).toNat = (u.toNat + (2 ^ 32 - 0x02000000)) % 2 ^ 32 := by
    rw [BitVec.toNat_sub, Nat.add_comm]
    rfl
  simp only [encMask, Scope.signedReinterpretationRoundTrips.2.2, maskNum, getLsbD_eq_true_iff, ht]
  split
  · rw [toNat_low27, ht]
  · exact ht

/-- R130: the packed word of a 5-bit exponent field and a 27-bit field. -/
def packNum (e : Int) (m : Nat) : Nat := (e + 15).toNat * 2 ^ 27 + m

theorem packNum_lt {e : Int} {m : Nat} (he : e ≤ 16) (hm : m < 2 ^ 27) : packNum e m < 2 ^ 32 := by
  rw [packNum]
  omega

/-- R131: the two cases of ERR_RANGE, for the exponent and the masked word. -/
abbrev RangeError (e : Int) (m : Nat) : Prop := e < -15 ∨ 16 < e ∨ m / 2 ^ 27 ≠ 0

/-- R131: a masked word with no bit above 26. -/
theorem extractLsb'_27_eq_zero_iff (t : Word) : t.extractLsb' 27 5 = 0#5 ↔ t.toNat / 2 ^ 27 = 0 := by
  rw [← BitVec.toNat_inj, ← Encoding.bitsAt_eq_toNat_extractLsb', BitVec.toNat_ofNat, bitsAt]
  omega

/-- R130: with no bit of the masked word in the exponent's place, the OR is a sum. -/
theorem ofInt_shiftLeft_or {e : Int} (hlow : -15 ≤ e) (hhigh : e ≤ 16) {t : Word} (ht : t.toNat < 2 ^ 27) :
    (BitVec.ofInt 32 (e + 15) <<< 27) ||| t = BitVec.ofNat 32 (packNum e t.toNat) := by
  have hexp : (BitVec.ofInt 32 (e + 15) <<< 27).toNat = (e + 15).toNat <<< 27 := by
    rw [BitVec.toNat_shiftLeft, BitVec.toNat_ofInt, Nat.shiftLeft_eq, Nat.shiftLeft_eq]
    omega
  apply BitVec.eq_of_toNat_eq
  rw [BitVec.toNat_or, hexp, ← Nat.shiftLeft_add_eq_or_of_lt ht, Nat.shiftLeft_eq, BitVec.toNat_ofNat,
    Nat.mod_eq_of_lt (packNum_lt hhigh ht), packNum]

/-- R130, R131 on numbers. -/
theorem enc32_eq (u : Word) (e : Int) : enc32 (toS32 u) e =
    if RangeError e (maskNum u.toNat) then none else some (BitVec.ofNat 32 (packNum e (maskNum u.toNat))) := by
  simp only [enc32, ne_eq, extractLsb'_27_eq_zero_iff, toNat_encMask]
  split
  next he => rw [if_pos (he.imp_right .inl)]
  next he =>
    split
    next hm => rw [if_pos (.inr (.inr hm))]
    next hm =>
      rw [if_neg (by tauto), ofInt_shiftLeft_or (by omega) (by omega) (by rw [toNat_encMask]; omega), toNat_encMask]

theorem exec_valEnc32_of_errRange {s : State} (h : RangeError (seE s.opb) (maskNum s.opa.toNat)) :
    exec .valEnc32 s = .next (s.record .errRange {}) := by
  rcases Laws.execValEnc32_cases s with ⟨-, hexec⟩ | ⟨w, hsome, -⟩
  · exact hexec
  · rw [seS, enc32_eq, if_pos h] at hsome
    cases hsome

theorem exec_valEnc32_of_fits {s : State} {e : Int} {m : Nat} (he : seE s.opb = e) (hm : maskNum s.opa.toNat = m)
    (h : ¬ RangeError e m) : exec .valEnc32 s = .next (s.record .ok
      { res0 := wirePair (byteOf (BitVec.ofNat 32 (packNum e m)) 3) (byteOf (BitVec.ofNat 32 (packNum e m)) 2)
        res1 := wirePair (byteOf (BitVec.ofNat 32 (packNum e m)) 1) (byteOf (BitVec.ofNat 32 (packNum e m)) 0)
        rexp := BitVec.ofInt 32 e }) := by
  subst he hm
  rw [← sext8_crop8 (by omega) (by omega)]
  rcases Laws.execValEnc32_cases s with ⟨hnone, -⟩ | ⟨w, hsome, hexec⟩
  · rw [seS, enc32_eq, if_neg h] at hnone
    cases hnone
  · rw [seS, enc32_eq, if_neg h] at hsome
    obtain rfl := Option.some.inj hsome
    exact hexec

theorem toNat_zext8 (b : Byte) : (zext8 b).toNat = b.toNat := BitVec.toNat_setWidth_of_le (by decide)

/-- R83: a triplet result is its three bytes, the first one highest. -/
theorem packT24_eq_ofNat (t0 t1 t2 : Byte) :
    packT24 t0 t1 t2 = BitVec.ofNat 32 (t0.toNat * 2 ^ 16 + t1.toNat * 2 ^ 8 + t2.toNat) := by
  have hplace {b : Byte} {k : Nat} (hk : b.toNat <<< k < 2 ^ 32) : (zext8 b <<< k).toNat = b.toNat <<< k := by
    rw [BitVec.toNat_shiftLeft, toNat_zext8, Nat.mod_eq_of_lt hk]
  have h0 : t0.toNat <<< 16 = t0.toNat * 2 ^ 16 := Nat.shiftLeft_eq _ _
  have h1 : t1.toNat <<< 8 = t1.toNat * 2 ^ 8 := Nat.shiftLeft_eq _ _
  apply BitVec.eq_of_toNat_eq
  rw [packT24, BitVec.toNat_or, BitVec.toNat_or, hplace (by omega), hplace (by omega), toNat_zext8, Nat.or_assoc,
    ← Nat.shiftLeft_add_eq_or_of_lt t2.isLt, ← Nat.shiftLeft_add_eq_or_of_lt (by omega), h0, h1, BitVec.toNat_ofNat]
  omega

/-- R130: a wire triplet, by arithmetic. -/
theorem wirePair_eq_ofNat (r0 r1 : Byte) :
    wirePair r0 r1 = BitVec.ofNat 32 ((255 - r0.toNat) * 2 ^ 16 + r1.toNat * 2 ^ 8 +
      (crc8 (BitVec.ofNat 8 (255 - r0.toNat)) (BitVec.ofNat 8 r1.toNat)).toNat) := by
  rw [wirePair, packT24_eq_ofNat, ← Scope.toNat_not8, BitVec.ofNat_toNat, BitVec.ofNat_toNat, BitVec.setWidth_eq,
    BitVec.setWidth_eq]

theorem bitsAt_ofNat {n : Nat} (hn : n < 2 ^ 32) (lo k : Nat) :
    bitsAt (BitVec.ofNat 32 n) lo k = n / 2 ^ lo % 2 ^ k := by
  rw [bitsAt, BitVec.toNat_ofNat, Nat.mod_eq_of_lt hn]

/-- R130: the first triplet of the packed word `n`. -/
theorem wirePair_high {n : Nat} (hn : n < 2 ^ 32) :
    let a := 255 - n / 2 ^ 24
    let p1 := n / 2 ^ 16 % 2 ^ 8
    wirePair (byteOf (BitVec.ofNat 32 n) 3) (byteOf (BitVec.ofNat 32 n) 2) =
      BitVec.ofNat 32 (a * 2 ^ 16 + p1 * 2 ^ 8 + (crc8 (BitVec.ofNat 8 a) (BitVec.ofNat 8 p1)).toNat) := by
  have htop : n / 2 ^ 24 % 2 ^ 8 = n / 2 ^ 24 := by omega
  rw [wirePair_eq_ofNat, Crc.toNat_byteOf, Crc.toNat_byteOf, bitsAt_ofNat hn, bitsAt_ofNat hn, htop]

/-- R130: the second triplet of the packed word `n`. -/
theorem wirePair_low {n : Nat} (hn : n < 2 ^ 32) :
    let c := 255 - n / 2 ^ 8 % 2 ^ 8
    let p3 := n % 2 ^ 8
    wirePair (byteOf (BitVec.ofNat 32 n) 1) (byteOf (BitVec.ofNat 32 n) 0) =
      BitVec.ofNat 32 (c * 2 ^ 16 + p3 * 2 ^ 8 + (crc8 (BitVec.ofNat 8 c) (BitVec.ofNat 8 p3)).toNat) := by
  rw [wirePair_eq_ofNat, Crc.toNat_byteOf, Crc.toNat_byteOf, bitsAt_ofNat hn, bitsAt_ofNat hn, Nat.mul_zero, pow_zero,
    Nat.div_one]

/-- Settles O32: the two cases of R131, and else the two triplets of the packed word. -/
theorem enc32PacksOrReportsErrRange : Obligations.Enc32PacksOrReportsErrRange := by
  intro s e t tm w a p1 c p3
  have he : seE s.opb = e := seE_eq_bitsAt s.opb
  have htm : maskNum s.opa.toNat = tm := rfl
  split
  next hrange => exact exec_valEnc32_of_errRange (by rwa [he, htm])
  next hfits =>
    have hw : packNum e tm < 2 ^ 32 := packNum_lt (by omega) (by omega)
    rw [exec_valEnc32_of_fits he htm hfits, wirePair_high hw, wirePair_low hw]
    rfl

/-! ### The round trip (R132) -/

/-! #### The pair bytes of a packed word -/

/-- R130, R132: bits 23:8 of a wire triplet are its pair. -/
theorem bitsAt_wirePair (r0 r1 : Byte) : bitsAt (wirePair r0 r1) 8 16 = (255 - r0.toNat) * 2 ^ 8 + r1.toNat := by
  rw [wirePair_eq_ofNat, bitsAt, BitVec.toNat_ofNat]
  omega

/-- R132: the pair bytes of a packed word's triplets are that word with the first byte of each pair complemented. -/
theorem pairBytes_wirePairs {t : State} {w : Word} (h0 : t.res0 = wirePair (byteOf w 3) (byteOf w 2))
    (h1 : t.res1 = wirePair (byteOf w 1) (byteOf w 0)) : pairBytes t = BitVec.ofNat 32 (rawNum w) := by
  rw [pairBytes, h0, h1, bitsAt_wirePair, bitsAt_wirePair]
  simp only [Crc.toNat_byteOf, rawNum, Nat.reduceMul]
  exact congrArg (BitVec.ofNat 32) (by omega)

/-- R8: a word is its four bytes. -/
theorem toNat_eq_bytes (w : Word) :
    w.toNat = bitsAt w 24 8 * 2 ^ 24 + bitsAt w 16 8 * 2 ^ 16 + bitsAt w 8 8 * 2 ^ 8 + bitsAt w 0 8 := by
  have hlt := w.isLt
  simp only [bitsAt]
  omega

/-- Complementing the first byte of each pair twice is no change (R13). -/
theorem rawNum_ofNat_rawNum (w : Word) : rawNum (BitVec.ofNat 32 (rawNum w)) = w.toNat := by
  have h3 := bitsAt_lt w 24 8
  have h2 := bitsAt_lt w 16 8
  have h1 := bitsAt_lt w 8 8
  have h0 := bitsAt_lt w 0 8
  rw [toNat_eq_bytes w, rawNum]
  simp only [bitsAt_ofNat (rawNum_lt w)]
  simp only [rawNum]
  omega

/-! #### The field of a value -/

/-- R132: the domain D is where the encoder's field is a value's and stands for the value encoded. -/
theorem inD_iff {S : Int} (hlow : -2 ^ 31 ≤ S) (hhigh : S < 2 ^ 31) :
    inD S ↔ maskNum (BitVec.ofInt 32 S).toNat < 0x07F5E100 ∧
      fieldValue (maskNum (BitVec.ofInt 32 S).toNat) = S := by
  simp only [inD, BitVec.toNat_ofInt, maskNum, fieldValue]
  split <;> split <;> omega

/-- R128, R132: encoding the value of a field gives the field. -/
theorem maskNum_fieldValue {m : Nat} (hm : m < 0x07F5E100) : maskNum (BitVec.ofInt 32 (fieldValue m)).toNat = m := by
  simp only [BitVec.toNat_ofInt, maskNum, fieldValue]
  split <;> split <;> omega

theorem fieldValue_range {m : Nat} (hm : m < 2 ^ 27) : -2 ^ 31 ≤ fieldValue m ∧ fieldValue m < 2 ^ 31 := by
  rw [fieldValue]
  split <;> omega

/-! #### Results as operands -/

theorem byteOf_zero_eq_ofNat (w : Word) : byteOf w 0 = BitVec.ofNat 8 w.toNat := by
  rw [← Crc.ofNat_bitsAt, ← BitVec.toNat_inj, BitVec.toNat_ofNat, BitVec.toNat_ofNat, bitsAt]
  omega

/-- R130: OPB[31:8] is ignored, and the low byte fixes the exponent. -/
theorem seE_of_low_byte {opb : Word} {e : Int} (hlow : -128 ≤ e) (hhigh : e < 128)
    (h : BitVec.ofNat 8 opb.toNat = BitVec.ofInt 8 e) : seE opb = e := by
  rw [seE_eq_toInt, byteOf_zero_eq_ofNat, h, BitVec.toInt_ofInt]
  exact Int.bmod_eq_of_le (by omega) (by omega)

theorem ofInt32_inj {S S' : Int} (hS : -2 ^ 31 ≤ S ∧ S < 2 ^ 31) (hS' : -2 ^ 31 ≤ S' ∧ S' < 2 ^ 31)
    (h : BitVec.ofInt 32 S = BitVec.ofInt 32 S') : S = S' := by
  have hmod := congrArg BitVec.toNat h
  rw [BitVec.toNat_ofInt, BitVec.toNat_ofInt] at hmod
  omega

theorem ofNat8_toNat_ofInt32 (e : Int) : BitVec.ofNat 8 (BitVec.ofInt 32 e).toNat = BitVec.ofInt 8 e := by
  rw [← BitVec.toNat_inj, BitVec.toNat_ofNat, BitVec.toNat_ofInt, BitVec.toNat_ofInt]
  omega

/-! #### One command after the other -/

/-- R130: packing keeps both fields. -/
theorem packNum_fields {e : Int} {m : Nat} (h : ¬ RangeError e m) :
    packNum e m % 2 ^ 27 = m ∧ ((packNum e m / 2 ^ 27 : Nat) : Int) - 15 = e := by
  rw [packNum]
  omega

/-- R132: what an encode without ERR_RANGE leaves in its pair bytes. -/
theorem exists_valEnc32_ok {s : State} {e : Int} {m : Nat} (he : seE s.opb = e) (hm : maskNum s.opa.toNat = m)
    (h : ¬ RangeError e m) : ∃ t, exec .valEnc32 s = .next t ∧ t.scode = .ok ∧
      pairBytes t = BitVec.ofNat 32 (rawNum (BitVec.ofNat 32 (packNum e m))) :=
  ⟨_, exec_valEnc32_of_fits he hm h, rfl, pairBytes_wirePairs rfl rfl⟩

/-- R132: those pair bytes decode to the two fields that were packed. -/
theorem exec_valDec32_of_pairBytes {u : State} {e : Int} {m : Nat} (h : ¬ RangeError e m)
    (hu : u.opa = BitVec.ofNat 32 (rawNum (BitVec.ofNat 32 (packNum e m)))) :
    exec .valDec32 u = .next (finishDecoded (fieldDecoded m e) u) := by
  have hpack : packNum e m < 2 ^ 32 := packNum_lt (by omega) (by omega)
  obtain ⟨hfield, hexp⟩ := packNum_fields h
  rw [exec_valDec32, hu, rawNum_ofNat_rawNum, BitVec.toNat_ofNat, Nat.mod_eq_of_lt hpack, hfield, hexp]

/-- R132, first sentence. -/
theorem decode_encode_of_inD {s : State} {S e : Int} (hD : inD S) (hlow : -15 ≤ e) (hhigh : e ≤ 16)
    (hopa : s.opa = BitVec.ofInt 32 S) (hopb : BitVec.ofNat 8 s.opb.toNat = BitVec.ofInt 8 e) :
    ∃ t, exec .valEnc32 s = .next t ∧ t.scode = .ok ∧ ∀ u : State, u.opa = pairBytes t →
      ∃ v, exec .valDec32 u = .next v ∧ v.scode = .ok ∧ v.res0 = BitVec.ofInt 32 S ∧ v.rexp = BitVec.ofInt 32 e := by
  have hrange : -2 ^ 31 ≤ S ∧ S < 2 ^ 31 := by
    rw [inD] at hD
    omega
  obtain ⟨hlt, hvalue⟩ := (inD_iff hrange.1 hrange.2).1 hD
  rw [← hopa] at hlt hvalue
  have hfits : ¬ RangeError e (maskNum s.opa.toNat) := by omega
  obtain ⟨t, hexec, hok, hpairs⟩ := exists_valEnc32_ok (seE_of_low_byte (by omega) (by omega) hopb) rfl hfits
  refine ⟨t, hexec, hok, fun u hu => ⟨_, exec_valDec32_of_pairBytes hfits (hu.trans hpairs), ?_⟩⟩
  rw [fieldDecoded, if_neg (by omega), finishDecoded_value (by omega) (by omega), hvalue]
  exact ⟨rfl, rfl, rfl⟩

/-- R132, second sentence. -/
theorem decode_encode_of_not_inD {s : State} {S : Int} (hlow : -2 ^ 31 ≤ S) (hhigh : S < 2 ^ 31) (hD : ¬ inD S)
    (hopa : s.opa = BitVec.ofInt 32 S) :
    ∃ t, exec .valEnc32 s = .next t ∧ (t.scode = .errRange ∨ ∀ u : State, u.opa = pairBytes t →
      ∃ v, exec .valDec32 u = .next v ∧ (v.scode = .sentinel ∨ v.res0 ≠ BitVec.ofInt 32 S)) := by
  by_cases herr : RangeError (seE s.opb) (maskNum s.opa.toNat)
  · exact ⟨_, exec_valEnc32_of_errRange herr, .inl rfl⟩
  · obtain ⟨t, hexec, -, hpairs⟩ := exists_valEnc32_ok rfl rfl herr
    refine ⟨t, hexec, .inr fun u hu => ⟨_, exec_valDec32_of_pairBytes herr (hu.trans hpairs), ?_⟩⟩
    rw [fieldDecoded]
    split
    next hsentinel => exact .inl rfl
    next hvalue =>
      refine .inr fun hres => hD ((inD_iff hlow hhigh).2 ?_)
      rw [Nat.not_le] at hvalue
      rw [← hopa]
      exact ⟨hvalue, ofInt32_inj (fieldValue_range (by omega)) ⟨hlow, hhigh⟩ hres⟩

/-- R132, third sentence. -/
theorem encode_decode {s t u : State} (hexec : exec .valDec32 s = .next t) (hok : t.scode = .ok)
    (hopa : u.opa = t.res0) (hopb : BitVec.ofNat 8 u.opb.toNat = BitVec.ofNat 8 t.rexp.toNat) :
    ∃ v, exec .valEnc32 u = .next v ∧ v.scode = .ok ∧ pairBytes v = s.opa := by
  have hraw := rawNum_lt s.opa
  rw [exec_valDec32, fieldDecoded] at hexec
  split at hexec
  next hsentinel =>
    obtain rfl := Host.Outcome.next.inj hexec
    cases hok
  next hvalue =>
    rw [finishDecoded_value (by omega) (by omega)] at hexec
    obtain rfl := Host.Outcome.next.inj hexec
    simp only [State.record_res0, State.record_rexp, ofNat8_toNat_ofInt32] at hopa hopb
    obtain ⟨v, hv, hvok, hpairs⟩ := exists_valEnc32_ok (seE_of_low_byte (by omega) (by omega) hopb)
      (hopa ▸ maskNum_fieldValue (not_le.1 hvalue)) (by omega)
    have hpack : packNum (((rawNum s.opa / 2 ^ 27 : Nat) : Int) - 15) (rawNum s.opa % 2 ^ 27) = rawNum s.opa := by
      rw [packNum]
      omega
    refine ⟨v, hv, hvok, ?_⟩
    rw [hpairs, hpack, rawNum_ofNat_rawNum, BitVec.ofNat_toNat, BitVec.setWidth_eq]

/-- Settles O33, sentence by sentence. -/
theorem valueRoundTripHoldsExactlyOnD : Obligations.ValueRoundTripHoldsExactlyOnD :=
  ⟨fun _ _ _ => decode_encode_of_inD, fun _ _ => decode_encode_of_not_inD, fun _ _ _ => encode_decode⟩

end Sys2Proof.Value
end

section
/-! PROOFS. The statements of 42_header.md: HDR.ENC packs the fields (R150, R152), HDR.DEC checks the CRC and unpacks
them (R153, R156), the two are inverse, and S.ENCODE makes the same triplet of a raw header (R155). -/

namespace Sys2Proof.Header

open Sys2Proof.Machine Sys2Proof.Safety

/-! ### Fields of a word -/

/-- A field put above the ones already there adds its number at its place. -/
theorem toNat_or_shiftLeft {w k a b : Nat} {lo hi : BitVec w} (hlo : lo.toNat = a) (hhi : hi.toNat = b)
    (ha : a < 2 ^ k) (hb : b * 2 ^ k < 2 ^ w) : (lo ||| hi <<< k).toNat = a + b * 2 ^ k := by
  rw [BitVec.toNat_or, BitVec.toNat_shiftLeft, hlo, hhi, Nat.shiftLeft_eq, Nat.mod_eq_of_lt hb, ← Nat.shiftLeft_eq,
    Nat.or_comm, ← Nat.shiftLeft_add_eq_or_of_lt ha, Nat.add_comm]

/-- The field of `n` bits from bit `k` upward, under the mask of exactly those bits. -/
theorem toNat_and_ushiftRight {w k n : Nat} {mask : BitVec w} (hmask : mask.toNat >>> k = 2 ^ n - 1) (x : BitVec w) :
    ((x &&& mask) >>> k).toNat = x.toNat / 2 ^ k % 2 ^ n := by
  rw [BitVec.toNat_ushiftRight, BitVec.toNat_and, Nat.shiftRight_and_distrib, hmask, Nat.and_two_pow_sub_one_eq_mod,
    Nat.shiftRight_eq_div_pow]

/-- R83: the bytes of a triplet result are the ones packed. -/
theorem byteOf_packT24 (t0 t1 t2 : Byte) :
    byteOf (packT24 t0 t1 t2) 2 = t0 ∧ byteOf (packT24 t0 t1 t2) 1 = t1 ∧ byteOf (packT24 t0 t1 t2) 0 = t2 := by
  simp only [← BitVec.toNat_inj, Crc.toNat_byteOf, Value.packT24_eq_ofNat]
  rw [Value.bitsAt_ofNat (by omega), Value.bitsAt_ofNat (by omega), Value.bitsAt_ofNat (by omega)]
  omega

/-! ### HDR.ENC (R150, R152) -/

/-- R150: the header byte, by arithmetic. -/
theorem toNat_headerByte (f : HeaderFields) :
    (headerByte f).toNat = f.dir.toNat + f.lcode.toNat * 2 + f.prio.toNat * 8 + f.code.toNat * 16 := by
  have hextend {n : Nat} (b : BitVec n) (hn : n ≤ 8) : (b.setWidth 8).toNat = b.toNat :=
    BitVec.toNat_setWidth_of_le hn
  have hlcode := toNat_or_shiftLeft (k := 1) (hextend f.dir (by decide)) (hextend f.lcode (by decide)) (by omega)
    (by omega)
  have hprio := toNat_or_shiftLeft (k := 3) hlcode (hextend f.prio (by decide)) (by omega) (by omega)
  exact toNat_or_shiftLeft (k := 4) hprio (hextend f.code (by decide)) (by omega) (by omega)

/-- R84, R150: the header byte of an operand's fields, by arithmetic. -/
theorem toNat_headerByte_hf (w : Word) : (headerByte (hf w)).toNat =
    bitsAt w 15 1 + bitsAt w 13 2 * 2 + bitsAt w 12 1 * 8 + bitsAt w 8 4 * 16 := by
  simp only [Encoding.bitsAt_eq_toNat_extractLsb']
  exact toNat_headerByte (hf w)

theorem toNat_addr_hf (w : Word) : (hf w).addr.toNat = bitsAt w 0 8 :=
  (Encoding.bitsAt_eq_toNat_extractLsb' w 0 8).symm

/-- R150: the header triplet of an operand's fields. -/
def headerTriplet (w : Word) : Word :=
  packT24 (not8 (hf w).addr) (headerByte (hf w)) (crc8 (not8 (hf w).addr) (headerByte (hf w)))

theorem exec_hdrEnc (s : State) : exec .hdrEnc s = .next (s.record .ok { res0 := headerTriplet s.opa }) := rfl

/-- Settles O34: the header triplet is packed as its numbers are. -/
theorem hdrEncPacksTheHeaderTriplet : Obligations.HdrEncPacksTheHeaderTriplet := by
  intro s t0 t1
  have h0 : (not8 (hf s.opa).addr).toNat = t0 := by rw [Scope.toNat_not8, toNat_addr_hf]
  have h1 : (headerByte (hf s.opa)).toNat = t1 := toNat_headerByte_hf s.opa
  rw [exec_hdrEnc, headerTriplet, Value.packT24_eq_ofNat, ← h0, ← h1]
  simp only [BitVec.ofNat_toNat, BitVec.setWidth_eq]
  rfl

/-! ### HDR.DEC (R153, R156) -/

/-- R84, R153: the five fields of the header bytes `t0` and `t1` in layout HF, by arithmetic. -/
def fieldsNum (t0 t1 : Nat) : Nat :=
  (255 - t0) + t1 / 16 * 2 ^ 8 + t1 / 8 % 2 * 2 ^ 12 + t1 / 2 % 4 * 2 ^ 13 + t1 % 2 * 2 ^ 15

/-- R153: what HDR.DEC leaves in RES0 on OK. -/
theorem unpack_eq_ofNat (t0 t1 : Byte) :
    zext8 (not8 t0) ||| (zext8 ((t1 &&& 0xF0#8) >>> 4) <<< 8) ||| (zext8 ((t1 &&& 0x08#8) >>> 3) <<< 12) |||
      (zext8 ((t1 &&& 0x06#8) >>> 1) <<< 13) ||| (zext8 (t1 &&& 0x01#8) <<< 15) =
      BitVec.ofNat 32 (fieldsNum t0.toNat t1.toNat) := by
  have haddr : (zext8 (not8 t0)).toNat = 255 - t0.toNat := (Value.toNat_zext8 _).trans (Scope.toNat_not8 t0)
  have hcode : (zext8 ((t1 &&& 0xF0#8) >>> 4)).toNat = t1.toNat / 16 := by
    rw [Value.toNat_zext8, toNat_and_ushiftRight (n := 4) rfl]
    exact Nat.mod_eq_of_lt (by omega)
  have hprio : (zext8 ((t1 &&& 0x08#8) >>> 3)).toNat = t1.toNat / 8 % 2 :=
    (Value.toNat_zext8 _).trans (toNat_and_ushiftRight (n := 1) rfl t1)
  have hlcode : (zext8 ((t1 &&& 0x06#8) >>> 1)).toNat = t1.toNat / 2 % 4 :=
    (Value.toNat_zext8 _).trans (toNat_and_ushiftRight (n := 2) rfl t1)
  have hdir : (zext8 (t1 &&& 0x01#8)).toNat = t1.toNat % 2 :=
    (Value.toNat_zext8 _).trans (Nat.and_two_pow_sub_one_eq_mod _ 1)
  have h8 := toNat_or_shiftLeft (k := 8) haddr hcode (by omega) (by omega)
  have h12 := toNat_or_shiftLeft (k := 12) h8 hprio (by omega) (by omega)
  have h13 := toNat_or_shiftLeft (k := 13) h12 hlcode (by omega) (by omega)
  have h15 := toNat_or_shiftLeft (k := 15) h13 hdir (by omega) (by omega)
  apply BitVec.eq_of_toNat_eq
  rw [h15, BitVec.toNat_ofNat, fieldsNum]
  omega

theorem exec_hdrDec_of_bad_crc {s : State} (h : crc8 (byteOf s.opa 2) (byteOf s.opa 1) ≠ byteOf s.opa 0) :
    exec .hdrDec s = .next (s.record .errCrc
      { res0 := zext8 (crc8 (byteOf s.opa 2) (byteOf s.opa 1)), res1 := zext8 (byteOf s.opa 0) }) := by
  rcases Laws.execHdrDec_cases s with ⟨-, hexec⟩ | ⟨hgood, -⟩
  · exact hexec
  · exact absurd hgood h

theorem exec_hdrDec_of_good_crc {s : State} (h : crc8 (byteOf s.opa 2) (byteOf s.opa 1) = byteOf s.opa 0) :
    exec .hdrDec s = .next (s.record .ok
      { res0 := BitVec.ofNat 32 (fieldsNum (byteOf s.opa 2).toNat (byteOf s.opa 1).toNat) }) := by
  rcases Laws.execHdrDec_cases s with ⟨hbad, -⟩ | ⟨-, hexec⟩
  · exact absurd h hbad
  · rwa [unpack_eq_ofNat] at hexec

/-- Settles O35: one case for each answer of the CRC check. -/
theorem hdrDecChecksTheCrcAndUnpacks : Obligations.HdrDecChecksTheCrcAndUnpacks := by
  intro s
  simp only [← Crc.toNat_byteOf s.opa 2, ← Crc.toNat_byteOf s.opa 1, ← Crc.toNat_byteOf s.opa 0, BitVec.ofNat_toNat,
    BitVec.setWidth_eq, ne_eq, BitVec.toNat_inj]
  split
  next hbad => exact exec_hdrDec_of_bad_crc hbad
  next hgood => exact exec_hdrDec_of_good_crc (not_not.1 hgood)

/-! ### The round trip and S.ENCODE (R152, R153, R155) -/

theorem byteOf_headerTriplet (w : Word) :
    byteOf (headerTriplet w) 2 = not8 (hf w).addr ∧ byteOf (headerTriplet w) 1 = headerByte (hf w) ∧
    byteOf (headerTriplet w) 0 = crc8 (not8 (hf w).addr) (headerByte (hf w)) := byteOf_packT24 _ _ _

/-- R150, R153: the fields that were packed into the header byte come out of it. -/
theorem fieldsNum_pack {addr code prio lcode dir : Nat} (haddr : addr < 256) (hprio : prio < 2) (hlcode : lcode < 4)
    (hdir : dir < 2) : fieldsNum (255 - addr) (dir + lcode * 2 + prio * 8 + code * 16) =
      addr + code * 2 ^ 8 + prio * 2 ^ 12 + lcode * 2 ^ 13 + dir * 2 ^ 15 := by
  rw [fieldsNum]
  omega

/-- R84: the five fields of layout HF make up the low half of a word. -/
theorem bitsAt_fields (w : Word) : bitsAt w 0 8 + bitsAt w 8 4 * 2 ^ 8 + bitsAt w 12 1 * 2 ^ 12 +
    bitsAt w 13 2 * 2 ^ 13 + bitsAt w 15 1 * 2 ^ 15 = bitsAt w 0 16 := by
  simp only [bitsAt]
  omega

/-- R150, R153: unpacking gives back the low half of the operand that was packed. -/
theorem fieldsNum_header (w : Word) :
    fieldsNum (not8 (hf w).addr).toNat (headerByte (hf w)).toNat = bitsAt w 0 16 := by
  rw [Scope.toNat_not8, toNat_addr_hf, toNat_headerByte_hf, fieldsNum_pack (Value.bitsAt_lt w 0 8)
    (Value.bitsAt_lt w 12 1) (Value.bitsAt_lt w 13 2) (Value.bitsAt_lt w 15 1), bitsAt_fields]

/-- Settles O36: the triplet's own CRC is good, and its fields unpack to the operand's. -/
theorem headerRoundTripsForEveryOperand : Obligations.HeaderRoundTripsForEveryOperand := by
  intro s u
  obtain ⟨h2, h1, h0⟩ := byteOf_headerTriplet s.opa
  refine ⟨_, exec_hdrEnc s, fun (hopa : u.opa = headerTriplet s.opa) => ?_⟩
  rw [← hopa] at h2 h1 h0
  have hexec := exec_hdrDec_of_good_crc (s := u) (by rw [h2, h1, h0])
  rw [h2, h1, fieldsNum_header] at hexec
  exact ⟨_, hexec, rfl, rfl⟩

/-- R182, R183: what S.ENCODE makes of the first triplet of a Complete stream. -/
theorem exec_sEncode_first {s : State} {r0 r1 : Byte} (hcomplete : s.astate = .complete) (hlen : 3 ≤ s.len.toNat)
    (hcap : s.len.toNat ≤ Config.chip.cap) (h0 : memRead Config.chip s 0 = some r0)
    (h1 : memRead Config.chip s 1 = some r1) :
    ∃ t, exec .sEncode s = .next t ∧ memRead Config.chip t 0 = some (not8 r0) ∧ memRead Config.chip t 1 = some r1 ∧
      memRead Config.chip t 2 = some (crc8 (not8 r0) r1) := by
  obtain ⟨t, ht⟩ := BlockState.encode_completes hcap
  rcases Laws.encodeWith_cases ht with ⟨hnot, -⟩ | ⟨-, s1, hs1, rfl⟩
  · exact absurd hcomplete hnot
  · obtain ⟨-, htriplets, -⟩ := Laws.encodeTriplets_spec hs1
    obtain ⟨q0, q1, hq0, hq1, hwire⟩ := htriplets 0 (by omega)
    obtain rfl := Option.some.inj (hq0.symm.trans h0)
    obtain rfl := Option.some.inj (hq1.symm.trans h1)
    exact ⟨_, ht, hwire⟩

/-- Settles O37: both commands complement the address, keep the header byte and append the CRC of the two. -/
theorem encodedRawHeaderIsTheHdrEncTriplet : Obligations.EncodedRawHeaderIsTheHdrEncTriplet := by
  intro s u h addr t1 hcomplete hlen hcap hread0 hread1 haddr ht1 hexec
  obtain rfl := Host.Outcome.next.inj ((exec_hdrEnc u).symm.trans hexec)
  obtain rfl : (hf u.opa).addr = addr := BitVec.eq_of_toNat_eq ((toNat_addr_hf u.opa).trans haddr)
  obtain rfl : headerByte (hf u.opa) = t1 := BitVec.eq_of_toNat_eq ((toNat_headerByte_hf u.opa).trans ht1.symm)
  obtain ⟨hb2, hb1, hb0⟩ := byteOf_headerTriplet u.opa
  rw [Crc.ofNat_bitsAt _ 2, Crc.ofNat_bitsAt _ 1, Crc.ofNat_bitsAt _ 0, State.record_res0, hb2, hb1, hb0]
  exact exec_sEncode_first hcomplete hlen hcap hread0 hread1

end Sys2Proof.Header
end

section
/-! PROOFS. The statements of 43_stream.md: what each stream command does in every state that R46 allows, its errors in
their order (R172 to R190, R215), and the transition table of ASTATE (R192). -/

namespace Sys2Proof.Stream

open Sys2Proof.Machine Sys2Proof.Laws Sys2Proof.Safety Sys2Proof.BlockState

variable {p : Params} {s t : State}

/-! ### S.INIT, and the commands that store to no byte (R172, R186, R188, R190) -/

/-- Settles O24: the commands named are in none of the writer columns of OPA, OPB, BUF and STAGE. -/
theorem nonStoringStreamCommandsKeepAllBytes : Obligations.NonStoringStreamCommandsKeepAllBytes := by
  intro i s t hi h
  obtain ⟨hopa, hopb, -⟩ := commandsNeverWriteOperands i s t h
  obtain ⟨-, -, -, -, hbuf, hstage, -⟩ := onlyTheNamedWritersChangeState i s t h
  refine ⟨hopa, hopb, fun a => ⟨not_not.1 fun hne => ?_, not_not.1 fun hne => ?_⟩⟩
  · rcases hbuf a hne with rfl | rfl | rfl <;> simp at hi
  · obtain rfl := hstage a hne
    simp at hi

/-- R8, R82: the length-class code of an operand, by arithmetic. -/
theorem lc_eq_ofNat_bitsAt (w : Word) : lc w = BitVec.ofNat 2 (bitsAt w 0 2) := by
  rw [Encoding.bitsAt_eq_toNat_extractLsb', BitVec.ofNat_toNat, BitVec.setWidth_eq, lc]

/-- Settles O38: `initStream` written out, and Invalid is absorbing for every other command. -/
theorem initStartsAFreshStream : Obligations.InitStartsAFreshStream := by
  refine ⟨fun s => ?_, fun i s t hs h hleft => not_not.1 fun hi => hleft (exec_keeps_invalid hs hi h)⟩
  rw [← lc_eq_ofNat_bitsAt]
  rfl

/-! ### S.PUSH (R173) -/

/-- R173: with room in STAGE, S.PUSH stores the byte. -/
theorem pushWith_of_room (h : s.slen.toNat < p.cap) : ∃ s1, stageWrite p s.slen.toNat (b8 s.opa) s = some s1 ∧
    pushWith p s = .next ((s1.setStream s.astate s.len (s.slen + 1#16)).record .ok {}) := by
  have hw : stageWrite p s.slen.toNat (b8 s.opa) s = some _ := if_pos h
  exact ⟨_, hw, by simp [pushWith, h.ne, hw, finish_eq]⟩

/-- Settles O39: STAGE has room, or it is full. -/
theorem pushStagesOneByte : Obligations.PushStagesOneByte := by
  refine fun s => ⟨fun hroom => ?_, fun hfull => if_pos hfull⟩
  obtain ⟨s1, hw, hexec⟩ := pushWith_of_room hroom
  have hread := stageRead_stageWrite hw
  obtain ⟨-, rfl⟩ := stageWrite_spec hw
  have hslen : s.slen + 1#16 = BitVec.ofNat 16 (s.slen.toNat + 1) := BitVec.add_def ..
  rw [Crc.ofNat_bitsAt s.opa 0, ← hslen]
  exact ⟨_, hexec, rfl, slen_add_one chip_valid s hroom, (hread _).trans (if_pos rfl),
    fun a ha => (hread a).trans (if_neg ha)⟩

/-! ### The staged triplets -/

/-- The state and alignment checks of S.APPEND pass, and `bs` are the staged bytes (R174). -/
structure StagedTriplets (p : Params) (s : State) (bs : List Byte) : Prop where
  accepting : ¬ Terminal s
  pos : 0 < s.slen.toNat
  whole : s.slen.toNat % 3 = 0
  read : stageReadList p s 0 s.slen.toNat = some bs

theorem exists_stagedTriplets (hacc : ¬ Terminal s) (hpos : 0 < s.slen.toNat) (hwhole : s.slen.toNat % 3 = 0)
    (hcap : s.slen.toNat ≤ p.cap) : ∃ bs, StagedTriplets p s bs := by
  obtain ⟨bs, hbs⟩ := stageReadList_isSome (s := s) (i := 0) (by omega : 0 + s.slen.toNat ≤ p.cap)
  exact ⟨bs, hacc, hpos, hwhole, hbs⟩

namespace StagedTriplets

variable {bs : List Byte}

theorem length_eq (h : StagedTriplets p s bs) : bs.length = 3 * (s.slen.toNat / 3) := by
  have hwhole := h.whole
  rw [(stageReadList_spec h.read).1]
  omega

theorem getElem?_eq (h : StagedTriplets p s bs) {i : Nat} (hi : i < s.slen.toNat) : bs[i]? = stageRead p s i := by
  rw [← (stageReadList_spec h.read).2 i hi, Nat.zero_add]

/-- R174: a staged triplet is good when its third byte is the CRC of the other two. -/
theorem ok_iff (h : StagedTriplets p s bs) {j : Nat} (hj : j < s.slen.toNat / 3) : StagedTripletOk p s j ↔
    ∀ t0 t1 t2, bs[3 * j]? = some t0 → bs[3 * j + 1]? = some t1 → bs[3 * j + 2]? = some t2 → crc8 t0 t1 = t2 := by
  have hlen := h.length_eq
  have hbyte {i : Nat} (hi : i < bs.length) : ∃ b, bs[i]? = some b := ⟨_, List.getElem?_eq_getElem hi⟩
  obtain ⟨b0, h0⟩ := hbyte (i := 3 * j) (by omega)
  obtain ⟨b1, h1⟩ := hbyte (i := 3 * j + 1) (by omega)
  obtain ⟨b2, h2⟩ := hbyte (i := 3 * j + 2) (by omega)
  simp only [StagedTripletOk, ← h.getElem?_eq (show 3 * j < _ by omega), ← h.getElem?_eq (show 3 * j + 1 < _ by omega),
    ← h.getElem?_eq (show 3 * j + 2 < _ by omega), h0, h1, h2, Option.some.injEq]
  constructor
  · rintro ⟨_, _, rfl, rfl, hcrc⟩ _ _ _ rfl rfl rfl
    exact hcrc.symm
  · exact fun hcrc => ⟨b0, b1, rfl, rfl, (hcrc _ _ _ rfl rfl rfl).symm⟩

/-- R174: no triplet fails the CRC check exactly when every staged triplet is good. -/
theorem firstBadTriplet_eq_none_iff (h : StagedTriplets p s bs) :
    firstBadTriplet 0 bs = none ↔ ∀ j < s.slen.toNat / 3, StagedTripletOk p s j := by
  rw [firstBadTriplet_none h.length_eq]
  exact forall₂_congr fun j hj => (h.ok_iff hj).symm

/-- R174, R215: a bad triplet with good ones before it is the one that the CRC check finds. -/
theorem firstBadTriplet_eq_some (h : StagedTriplets p s bs) {j : Nat} {t0 t1 t2 : Byte} (hj : j < s.slen.toNat / 3)
    (h0 : stageRead p s (3 * j) = some t0) (h1 : stageRead p s (3 * j + 1) = some t1)
    (h2 : stageRead p s (3 * j + 2) = some t2) (hbad : crc8 t0 t1 ≠ t2) (hgood : ∀ i < j, StagedTripletOk p s i) :
    firstBadTriplet 0 bs = some (j, crc8 t0 t1, t2) := by
  rw [← h.getElem?_eq (by omega)] at h0 h1 h2
  have hjbad : ¬ StagedTripletOk p s j := fun hok => hbad ((h.ok_iff hj).1 hok _ _ _ h0 h1 h2)
  obtain ⟨⟨i, c, x⟩, hfound⟩ := Option.ne_none_iff_exists'.1 fun hnone =>
    hjbad (h.firstBadTriplet_eq_none_iff.1 hnone j hj)
  obtain ⟨k, hk, hik, u0, u1, g0, g1, g2, hc, hne, hbefore⟩ := firstBadTriplet_some h.length_eq hfound
  rw [Nat.zero_add] at hik
  subst hik hc
  rcases Nat.lt_trichotomy i j with hlt | rfl | hgt
  · exact absurd ((h.ok_iff hk).1 (hgood i hlt) _ _ _ g0 g1 g2) hne
  · obtain rfl := Option.some.inj (h0.symm.trans g0)
    obtain rfl := Option.some.inj (h1.symm.trans g1)
    obtain rfl := Option.some.inj (h2.symm.trans g2)
    exact hfound
  · exact absurd ((h.ok_iff hj).2 (hbefore j hgt)) hjbad

end StagedTriplets

/-! ### S.APPEND (R174, R215) -/

theorem not_terminal_iff : ¬ Terminal s ↔ s.astate = .empty ∨ s.astate = .partly := by
  cases h : s.astate <;> simp [Terminal, h]

theorem exceedsClass_eq_false_iff (c : LengthClass) (n : Nat) :
    exceedsClass c n = false ↔ ∀ e, expectedTriplets c = some e → n ≤ e := by
  rw [← Bool.not_eq_true, exceedsClass_iff]
  simp

theorem appendWith_of_terminal (h : Terminal s) : appendWith p s = .next ((dropStage s).record .errState {}) :=
  if_pos h

theorem appendWith_of_misaligned (hacc : ¬ Terminal s) (hk : s.slen.toNat = 0 ∨ s.slen.toNat % 3 ≠ 0) :
    appendWith p s = .next ((invalidate s).record .errAlign {}) :=
  (if_neg hacc).trans (if_pos hk)

namespace StagedTriplets

variable {bs : List Byte}

theorem append_of_bad_crc (h : StagedTriplets p s bs) {j : Nat} {c x : Byte}
    (hbad : firstBadTriplet 0 bs = some (j, c, x)) : appendWith p s = .next ((invalidate s).record .errCrc
      { res0 := zext8 c, res1 := zext8 x, ecode := BitVec.ofNat 32 j }) := by
  obtain ⟨hacc, hpos, hwhole, hread⟩ := h
  simp [appendWith, hacc, hpos.ne', hwhole, hread, hbad, raise_eq]

/-- With every CRC good, what is left is to check the count against the class and the length against CAP (R174). -/
theorem append_of_good_crcs (h : StagedTriplets p s bs) (hgood : ∀ j < s.slen.toNat / 3, StagedTripletOk p s j) :
    appendWith p s =
      if exceedsClass (clsOf p s) ((s.len.toNat + s.slen.toNat) / 3) then .next ((invalidate s).record .errLength {})
      else if p.cap < s.len.toNat + s.slen.toNat then .next ((invalidate s).record .errCapacity {})
      else commitAppend p bs s := by
  have hnone := h.firstBadTriplet_eq_none_iff.2 hgood
  obtain ⟨hacc, hpos, hwhole, hread⟩ := h
  simp [appendWith, hacc, hpos.ne', hwhole, hread, hnone, raise_eq]

end StagedTriplets

/-- Settles O40, check by check. -/
theorem appendReportsErrorsInOrder : Obligations.AppendReportsErrorsInOrder := by
  intro s hcap k n error
  refine ⟨appendWith_of_terminal, fun hacc => ?_⟩
  rw [← not_terminal_iff] at hacc
  refine ⟨appendWith_of_misaligned hacc, fun hpos hwhole => ?_⟩
  obtain ⟨bs, hst⟩ := exists_stagedTriplets hacc hpos hwhole hcap
  refine ⟨fun j t0 t1 t2 hj h0 h1 h2 hbad hbefore => ?_, fun hgood => ⟨fun e he hlt => ?_, fun hfits hover => ?_⟩⟩
  · rw [Crc.ofNat_toNat_eq_zext8, Crc.ofNat_toNat_eq_zext8]
    exact hst.append_of_bad_crc (hst.firstBadTriplet_eq_some hj h0 h1 h2 hbad hbefore)
  · exact (hst.append_of_good_crcs hgood).trans (if_pos ((exceedsClass_iff _ _).2 ⟨e, he, hlt⟩))
  · have hex := Bool.eq_false_iff.1 ((exceedsClass_eq_false_iff _ _).2 hfits)
    exact (hst.append_of_good_crcs hgood).trans ((if_neg hex).trans (if_pos hover))

/-! ### The commit of S.APPEND and S.SETDATA (R174, R178) -/

/-- A stretch written to BUF, read back. -/
theorem memRead_memWriteList {n : Nat} {bs : List Byte} (hw : memWriteList p n bs s = some t)
    (hcap : n + bs.length ≤ p.cap) (a : Nat) :
    memRead p t a = if n ≤ a ∧ a < n + bs.length then bs[a - n]? else memRead p s a := by
  obtain ⟨-, hbytes, -⟩ := memWriteList_spec hw
  simp only [memRead, hbytes]
  by_cases ha : n ≤ a ∧ a < n + bs.length
  · simp [ha, show a < p.cap by omega, show a - n < bs.length by omega]
  · simp only [if_neg ha]

/-- The staged bytes copied to BUF from `n` upward are there in order, and no other byte of BUF changes. -/
theorem memRead_commit {n k : Nat} {bs : List Byte} (hbs : stageReadList p s 0 k = some bs)
    (hw : memWriteList p n bs s = some t) (hcap : n + k ≤ p.cap) :
    (∀ i < k, memRead p t (n + i) = stageRead p s i) ∧
    (∀ a, a < n ∨ n + k ≤ a → memRead p t a = memRead p s a) := by
  obtain ⟨rfl, hget⟩ := stageReadList_spec hbs
  have hread := memRead_memWriteList hw hcap
  refine ⟨fun i hi => ?_, fun a ha => ?_⟩
  · rw [hread, if_pos (by omega), Nat.add_sub_cancel_left, ← hget i hi, Nat.zero_add]
  · rw [hread, if_neg (by omega)]

/-- Staged bytes that fit in BUF from `n` upward can be copied there. -/
theorem exists_commit (s : State) {n k : Nat} (hcap : n + k ≤ p.cap) :
    ∃ bs t, stageReadList p s 0 k = some bs ∧ memWriteList p n bs s = some t := by
  obtain ⟨bs, hbs⟩ := stageReadList_isSome (s := s) (i := 0) (by omega : 0 + k ≤ p.cap)
  obtain ⟨t, ht⟩ := memWriteList_isSome (s := s) (i := n) (bs := bs) (by rw [(stageReadList_spec hbs).1]; exact hcap)
  exact ⟨bs, t, hbs, ht⟩

theorem commitAppend_of_write {bs : List Byte} (hw : memWriteList p s.len.toNat bs s = some t) :
    commitAppend p bs s = .next ((t.setStream
      (if expectedTriplets (clsOf p s) = some ((s.len.toNat + s.slen.toNat) / 3) then .complete else .partly)
      (s.len + s.slen) 0#16).record .ok {}) := by
  simp only [commitAppend, hw, fillsClass_iff, finish_eq]

/-- Settles O41: the checks pass, and the commit is a copy of the staged bytes to BUF from LEN upward. -/
theorem appendCommitsTheStagedTriplets : Obligations.AppendCommitsTheStagedTriplets := by
  intro s k n hacc hpos hwhole hgood hfits hcap
  obtain ⟨bs, s1, hbs, hw⟩ := exists_commit s hcap
  have hst : StagedTriplets Config.chip s bs := ⟨not_terminal_iff.2 hacc, hpos, hwhole, hbs⟩
  have hex := Bool.eq_false_iff.1 ((exceedsClass_eq_false_iff _ _).2 hfits)
  have hexec := (hst.append_of_good_crcs hgood).trans ((if_neg hex).trans (if_neg hcap.not_gt))
  rw [commitAppend_of_write hw] at hexec
  obtain ⟨hstored, hkept⟩ := memRead_commit hbs hw hcap
  obtain ⟨m, rfl⟩ : ∃ m, s1 = s.setBuf m := ⟨_, (memWriteList_spec hw).1⟩
  have hlen : s.len + s.slen = BitVec.ofNat 16 (s.len.toNat + k) := BitVec.add_def ..
  rw [← hlen]
  exact ⟨_, hexec, rfl, len_add_slen chip_valid s hcap, hstored, hkept⟩

/-! ### S.SETDATA (R178, R215) -/

theorem setdataWith_of_not_empty (h : s.astate ≠ .empty) :
    setdataWith p s = .next ((dropStage s).record .errState {}) :=
  if_pos h

theorem setdataWith_of_fixed (hempty : s.astate = .empty) {e : Nat} (he : expectedTriplets (clsOf p s) = some e) :
    setdataWith p s = if s.slen.toNat ≠ 3 * e then .next ((invalidate s).record .errLength {})
      else commitSetdata p s := by
  simp [setdataWith, hempty, he, raise_eq]

theorem setdataWith_of_variable (hempty : s.astate = .empty) (he : expectedTriplets (clsOf p s) = none) :
    setdataWith p s = if s.slen.toNat = 0 ∨ s.slen.toNat % 3 ≠ 0 then .next ((invalidate s).record .errAlign {})
      else commitSetdata p s := by
  simp [setdataWith, hempty, he, raise_eq]

theorem commitSetdata_of_write {bs : List Byte} (hbs : stageReadList p s 0 s.slen.toNat = some bs)
    (hw : memWriteList p 0 bs s = some t) :
    commitSetdata p s = .next ((t.setStream .complete s.slen 0#16).record .ok {}) := by
  simp only [commitSetdata, hbs, hw, finish_eq]

/-- Settles O42: error by error, then the copy of the staged bytes to BUF from 0 upward. -/
theorem setdataOverwritesAFreshStream : Obligations.SetdataOverwritesAFreshStream := by
  intro s hcap k error
  refine ⟨setdataWith_of_not_empty, fun hempty e he hk => (setdataWith_of_fixed hempty he).trans (if_pos hk),
    fun hempty he hk => (setdataWith_of_variable hempty he).trans (if_pos hk), fun hempty hclass hpos hwhole => ?_⟩
  have hpasses : setdataWith Config.chip s = commitSetdata Config.chip s := by
    rcases hclass with he | he
    · exact (setdataWith_of_fixed hempty he).trans (if_neg (by omega))
    · exact (setdataWith_of_variable hempty he).trans (if_neg (by omega))
  obtain ⟨bs, s1, hbs, hw⟩ := exists_commit (p := Config.chip) s (n := 0) (k := k) (by omega)
  have hexec := hpasses.trans (commitSetdata_of_write hbs hw)
  obtain ⟨hstored, hkept⟩ := memRead_commit hbs hw (by omega)
  simp only [Nat.zero_add] at hstored
  obtain ⟨m, rfl⟩ : ∃ m, s1 = s.setBuf m := ⟨_, (memWriteList_spec hw).1⟩
  exact ⟨_, hexec, rfl, hstored, fun a ha => hkept a (by omega)⟩

/-! ### S.ENCODE (R182, R183) -/

/-- Settles O43, by what the encode transform does to the triplets of the stream. -/
theorem encodePutsEveryTripletInWireForm : Obligations.EncodePutsEveryTripletInWireForm := by
  refine fun s => ⟨fun hne => if_pos hne, fun hcomplete hcap => ?_⟩
  obtain ⟨s1, hs1⟩ := encodeTriplets_isSome (s := s) (n := s.len.toNat / 3) (by omega : _ ≤ Config.chip.cap)
  have hexec : encodeWith Config.chip s = .next (s1.record .ok {}) := by simp [encodeWith, hcomplete, hs1, finish_eq]
  obtain ⟨hframe, htriplets, hkept, -⟩ := encodeTriplets_spec hs1
  obtain ⟨m, rfl⟩ : ∃ m, s1 = s.setBuf m := ⟨_, hframe⟩
  simp only [← Scope.toNat_not8, BitVec.ofNat_toNat, BitVec.setWidth_eq]
  exact ⟨_, hexec, rfl, htriplets, hkept⟩

/-! ### S.VERIFY (R186, R187) -/

theorem verifyWith_of_invalid (h : s.astate = .invalid) : verifyWith p s = s.record .errState {} := if_pos h

theorem verifyWith_of_lengthOk (hne : s.astate ≠ .invalid) (hok : lengthOk (clsOf p s) s.len.toNat = true) :
    verifyWith p s = (s.setStream (if s.astate = .partly then .complete else s.astate) s.len s.slen).record .ok
      { boolFlag := true } :=
  (if_neg hne).trans (if_pos hok)

theorem verifyWith_of_not_lengthOk (hne : s.astate ≠ .invalid) (hbad : ¬ lengthOk (clsOf p s) s.len.toNat = true) :
    verifyWith p s = (s.setStream .invalid s.len s.slen).record .errLength {} :=
  (if_neg hne).trans (if_neg hbad)

/-- Settles O45: the length predicate of R187 is `lengthOk`. -/
theorem verifyDecidesTheLength : Obligations.VerifyDecidesTheLength := by
  intro s matched leave
  have hmatched : matched ↔ lengthOk (clsOf Config.chip s) s.len.toNat = true := by
    cases he : expectedTriplets (clsOf Config.chip s) with
    | none => simp [matched, he, lengthOk_variable he]
    | some e => simp [matched, he, lengthOk_fixed he]
  rw [hmatched]
  refine ⟨fun hinv => ?_, fun hne hok => congrArg _ (verifyWith_of_lengthOk hne hok),
    fun hne hbad => congrArg _ (verifyWith_of_not_lengthOk hne hbad)⟩
  rw [← hinv]
  exact congrArg _ (verifyWith_of_invalid hinv)

/-! ### S.READ and S.READT (R188, R190) -/

/-- R8, R82: the index of an operand, by arithmetic. -/
theorem ix_eq_bitsAt (w : Word) : ix w = bitsAt w 0 16 := (Encoding.bitsAt_eq_toNat_extractLsb' w 0 16).symm

/-- Settles O46: the byte is in the stream, so it exists, or it is not. -/
theorem readGivesOneStreamByte : Obligations.ReadGivesOneStreamByte := by
  intro s
  rw [← ix_eq_bitsAt]
  refine ⟨fun hout => if_pos hout, fun hin hcap => ?_⟩
  have hread := memRead_of_lt s (hin.trans_le hcap)
  refine ⟨_, hread, ?_⟩
  rw [Crc.ofNat_toNat_eq_zext8]
  show readWith Config.chip s = _
  simp [readWith, not_le.2 hin, hread, finish_eq, State.record]

/-- Settles O47: the triplet is in the stream, so its bytes exist, or it is not. -/
theorem readtGivesOneStreamTriplet : Obligations.ReadtGivesOneStreamTriplet := by
  intro s
  rw [← ix_eq_bitsAt]
  refine ⟨fun hout => if_pos hout, fun hin hcap => ?_⟩
  have h0 := memRead_of_lt (p := Config.chip) s (i := 3 * ix s.opa) (by omega)
  have h1 := memRead_of_lt (p := Config.chip) s (i := 3 * ix s.opa + 1) (by omega)
  have h2 := memRead_of_lt (p := Config.chip) s (i := 3 * ix s.opa + 2) (by omega)
  refine ⟨_, _, _, h0, h1, h2, ?_⟩
  rw [← Value.packT24_eq_ofNat]
  show readtWith Config.chip s = _
  simp [readtWith, not_lt.2 hin, h0, h1, h2, finish_eq, State.record]

/-! ### The transition table of ASTATE (R192) -/

/-- R174: a count within the class leaves Complete where it fills the class and Partial otherwise. -/
theorem astate_of_count {c : LengthClass} {n : Nat} (hex : exceedsClass c n = false) {a : AState}
    (ha : a = if fillsClass c n then .complete else .partly) :
    (∃ e, expectedTriplets c = some e ∧ n < e ∧ a = .partly) ∨ (expectedTriplets c = some n ∧ a = .complete) ∨
      (expectedTriplets c = none ∧ a = .partly) := by
  rw [exceedsClass_eq_false_iff] at hex
  simp only [fillsClass_iff] at ha
  cases he : expectedTriplets c with
  | none => exact .inr (.inr ⟨rfl, by simpa [he] using ha⟩)
  | some e =>
    rcases (hex e he).lt_or_eq with hlt | rfl
    · exact .inl ⟨e, rfl, hlt, by simpa [he, hlt.ne'] using ha⟩
    · exact .inr (.inl ⟨rfl, by simpa [he] using ha⟩)

/-- R192: the rows of S.APPEND in Empty and Partial. -/
theorem append_transition (hacc : ¬ Terminal s) (h : appendWith p s = .next t) :
    let E := expectedTriplets (clsOf p s)
    let k := s.slen.toNat
    let n := (s.len.toNat + k) / 3
    let crcsGood := ∀ j < k / 3, StagedTripletOk p s j
    (t.scode = .ok ∧ 0 < k ∧ k % 3 = 0 ∧ crcsGood ∧ s.len.toNat + k ≤ p.cap ∧
      ((∃ e, E = some e ∧ n < e ∧ t.astate = .partly) ∨ (E = some n ∧ t.astate = .complete) ∨
        (E = none ∧ t.astate = .partly))) ∨
    (t.astate = .invalid ∧
      ((t.scode = .errAlign ∧ (k = 0 ∨ k % 3 ≠ 0)) ∨
        (t.scode = .errCrc ∧ 0 < k ∧ k % 3 = 0 ∧ ¬ crcsGood) ∨
        (t.scode = .errLength ∧ 0 < k ∧ k % 3 = 0 ∧ crcsGood ∧ ∃ e, E = some e ∧ e < n) ∨
        (t.scode = .errCapacity ∧ 0 < k ∧ k % 3 = 0 ∧ crcsGood ∧ (∀ e, E = some e → n ≤ e) ∧
          p.cap < s.len.toNat + k))) := by
  intro E k n crcsGood
  rcases appendWith_cases h with ⟨hterm, -⟩ | ⟨-, hk, rfl⟩ | ⟨-, hpos, hwhole, bs, hbs, hchecked⟩
  · exact absurd hterm hacc
  · exact .inr ⟨rfl, .inl ⟨rfl, hk⟩⟩
  · have hst : StagedTriplets p s bs := ⟨hacc, hpos, hwhole, hbs⟩
    rcases hchecked with ⟨j, c, x, hbad, rfl⟩ | ⟨hnone, hcount⟩
    · have hsome : firstBadTriplet 0 bs ≠ none := by simp [hbad]
      exact .inr ⟨rfl, .inr (.inl ⟨rfl, hpos, hwhole, mt hst.firstBadTriplet_eq_none_iff.2 hsome⟩)⟩
    · have hgood := hst.firstBadTriplet_eq_none_iff.1 hnone
      rcases hcount with ⟨hex, rfl⟩ | ⟨hex, hover, rfl⟩ | ⟨hex, hcap, s1, -, rfl⟩
      · exact .inr ⟨rfl, .inr (.inr (.inl ⟨rfl, hpos, hwhole, hgood, (exceedsClass_iff _ _).1 hex⟩))⟩
      · exact .inr ⟨rfl, .inr (.inr (.inr
          ⟨rfl, hpos, hwhole, hgood, (exceedsClass_eq_false_iff _ _).1 hex, hover⟩))⟩
      · exact .inl ⟨rfl, hpos, hwhole, hgood, hcap, astate_of_count hex rfl⟩

/-- R192: the rows of S.SETDATA in Empty. -/
theorem setdata_transition (hempty : s.astate = .empty) (h : setdataWith p s = .next t) :
    let E := expectedTriplets (clsOf p s)
    let k := s.slen.toNat
    (t.astate = .complete ∧ t.scode = .ok ∧ ((∃ e, E = some e ∧ k = 3 * e) ∨ (E = none ∧ 0 < k ∧ k % 3 = 0))) ∨
    (t.astate = .invalid ∧
      ((t.scode = .errLength ∧ ∃ e, E = some e ∧ k ≠ 3 * e) ∨
        (t.scode = .errAlign ∧ E = none ∧ (k = 0 ∨ k % 3 ≠ 0)))) := by
  intro E k
  rcases setdataWith_cases h with ⟨hne, -⟩ | ⟨-, hlength, rfl⟩ | ⟨-, hvar, hk, rfl⟩ |
    ⟨-, hfixed, hpos, hwhole, bs, s1, -, -, rfl⟩
  · exact absurd hempty hne
  · exact .inr ⟨rfl, .inl ⟨rfl, hlength⟩⟩
  · exact .inr ⟨rfl, .inr ⟨rfl, hvar, hk⟩⟩
  · refine .inl ⟨rfl, rfl, ?_⟩
    cases he : E with
    | none => exact .inr ⟨rfl, hpos, hwhole⟩
    | some e => exact .inl ⟨e, rfl, hfixed e he⟩

/-- R46, R187: which safe states S.VERIFY finds to have the length of their class. -/
theorem lengthOk_of_safe (hs : SafeState p s) :
    (s.astate = .complete → lengthOk (clsOf p s) s.len.toNat = true) ∧
    (s.astate = .partly → (lengthOk (clsOf p s) s.len.toNat = true ↔ expectedTriplets (clsOf p s) = none)) ∧
    (s.astate = .empty → lengthOk (clsOf p s) s.len.toNat = false) := by
  obtain ⟨-, -, hlen⟩ := safeState_iff.1 hs
  refine ⟨fun ha => ?_, fun ha => ?_, fun ha => ?_⟩ <;> rw [ha] at hlen
  · exact hlen.2
  · obtain ⟨-, h3, hfixed⟩ := hlen
    cases he : expectedTriplets (clsOf p s) with
    | none => simp [lengthOk_variable he, h3]
    | some e => simp [lengthOk_fixed he, (hfixed e he).ne]
  · cases he : expectedTriplets (clsOf p s) with
    | none => simp [lengthOk_variable he, show s.len.toNat = 0 from hlen]
    | some e =>
      have := (expectedTriplets_range he).1
      simp [lengthOk_fixed he, show s.len.toNat = 0 from hlen]
      omega

/-- R37, R192: a command that is no writer of ASTATE keeps it. -/
theorem exec_keeps_astate {i : Instr} (hi : i ≠ .sInit ∧ i ≠ .sAppend ∧ i ≠ .sSetdata ∧ i ≠ .sVerify)
    (h : exec i s = .next t) : t.astate = s.astate := by
  obtain ⟨-, -, -, hwriters, -⟩ := onlyTheNamedWritersChangeState i s t h
  by_contra hne
  have := hwriters hne
  tauto

/-- Settles O49, by the rows of each command. -/
theorem assemblerFollowsTheTransitionTable : Obligations.AssemblerFollowsTheTransitionTable := by
  intro i s t hs h
  cases i with
  | sInit =>
    obtain rfl := Host.Outcome.next.inj h
    exact ⟨rfl, rfl⟩
  | sAppend =>
    simp only
    split
    next hterm =>
      obtain rfl := Host.Outcome.next.inj ((appendWith_of_terminal hterm).symm.trans h)
      exact ⟨rfl, rfl⟩
    next hacc => exact append_transition hacc h
  | sSetdata =>
    simp only
    split
    next hempty => exact setdata_transition hempty h
    next hne =>
      obtain rfl := Host.Outcome.next.inj ((setdataWith_of_not_empty hne).symm.trans h)
      exact ⟨rfl, rfl⟩
  | sVerify =>
    obtain rfl := Host.Outcome.next.inj h
    obtain ⟨hcomplete, hpartly, hempty⟩ := lengthOk_of_safe hs
    cases ha : s.astate with
    | invalid =>
      rw [verifyWith_of_invalid ha]
      exact ⟨ha, rfl⟩
    | complete =>
      rw [verifyWith_of_lengthOk (by simp [ha]) (hcomplete ha)]
      simp [ha]
    | partly =>
      simp only
      split
      next hvar =>
        rw [verifyWith_of_lengthOk (by simp [ha]) ((hpartly ha).2 hvar)]
        simp [ha]
      next hfixed =>
        rw [verifyWith_of_not_lengthOk (by simp [ha]) (mt (hpartly ha).1 hfixed)]
        exact ⟨rfl, rfl⟩
    | empty =>
      rw [verifyWith_of_not_lengthOk (by simp [ha]) (by simp [hempty ha])]
      exact ⟨rfl, rfl⟩
  | nop | crcGen | crcChk | valDec16 | valDec32 | valEnc32 | hdrEnc | hdrDec | sPush | sEncode | sRead | sReadt =>
    exact exec_keeps_astate (by decide) h

end Sys2Proof.Stream
end

section
/-! PROOFS. The statement of 44_system.md: NOP, the one command that records no result (R200). -/

namespace Sys2Proof.System

open Sys2Proof.Machine

/-- Settles O17: the arm of NOP is `execNop`, which answers the state it is given. -/
theorem nopChangesNothing : Obligations.NopChangesNothing := fun _ => rfl

end Sys2Proof.System
end

section
/-! PROOFS. The statements of 60_exceptions.md: the statuses that each command can leave (R210, R156), and what R213
says of the pure commands and of safe states. -/

namespace Sys2Proof.Exceptions

open Sys2Proof.Machine Sys2Proof.Laws Sys2Proof.Safety

variable {p : Params} {s t : State}

/-! ### The statuses of each command (R210) -/

/-- R120: both decodes end in OK or SENTINEL. -/
theorem scode_finishDecoded (d : Decoded) (s : State) :
    (finishDecoded d s).scode = .ok ∨ (finishDecoded d s).scode = .sentinel := by
  cases d with
  | value S e => exact .inl rfl
  | sentinel code => exact .inr rfl

theorem mayLeave_valDec16 (d : Decoded) (s : State) : mayLeave .valDec16 (finishDecoded d s).scode = true := by
  rcases scode_finishDecoded d s with h | h <;> rw [h] <;> rfl

theorem mayLeave_valDec32 (d : Decoded) (s : State) : mayLeave .valDec32 (finishDecoded d s).scode = true :=
  mayLeave_valDec16 d s

theorem mayLeave_valEnc32 (h : execValEnc32 s = .next t) : mayLeave .valEnc32 t.scode = true := by
  rcases execValEnc32_cases s with ⟨-, he⟩ | ⟨w, -, he⟩
  · obtain rfl := Host.Outcome.next.inj (he.symm.trans h)
    rfl
  · obtain rfl := Host.Outcome.next.inj (he.symm.trans h)
    rfl

/-- R156: no header fails the check of its fields, so ERR_HEADER is not among the cases. -/
theorem mayLeave_hdrDec (h : execHdrDec s = .next t) : mayLeave .hdrDec t.scode = true := by
  rcases execHdrDec_cases s with ⟨-, he⟩ | ⟨-, he⟩
  · obtain rfl := Host.Outcome.next.inj (he.symm.trans h)
    rfl
  · obtain rfl := Host.Outcome.next.inj (he.symm.trans h)
    rfl

theorem mayLeave_push (h : pushWith p s = .next t) : mayLeave .sPush t.scode = true := by
  rcases pushWith_cases h with ⟨-, rfl⟩ | ⟨-, -, rfl⟩
  · rfl
  · rfl

theorem mayLeave_append (h : appendWith p s = .next t) : mayLeave .sAppend t.scode = true := by
  rcases appendWith_cases h with ⟨-, rfl⟩ | ⟨-, -, rfl⟩ | ⟨-, -, -, bs, -, hchecked⟩
  · rfl
  · rfl
  · rcases hchecked with ⟨j, c, x, -, rfl⟩ | ⟨-, ⟨-, rfl⟩ | ⟨-, -, rfl⟩ | ⟨-, -, s1, -, rfl⟩⟩
    · rfl
    · rfl
    · rfl
    · rfl

theorem mayLeave_setdata (h : setdataWith p s = .next t) : mayLeave .sSetdata t.scode = true := by
  rcases setdataWith_cases h with ⟨-, rfl⟩ | ⟨-, -, rfl⟩ | ⟨-, -, -, rfl⟩ | ⟨-, -, -, -, bs, s1, -, -, rfl⟩
  · rfl
  · rfl
  · rfl
  · rfl

theorem mayLeave_encode (h : encodeWith p s = .next t) : mayLeave .sEncode t.scode = true := by
  rcases encodeWith_cases h with ⟨-, rfl⟩ | ⟨-, s1, -, rfl⟩
  · rfl
  · rfl

theorem mayLeave_verify (p : Params) (s : State) : mayLeave .sVerify (verifyWith p s).scode = true := by
  rcases verifyWith_cases p s with ⟨-, h⟩ | ⟨-, -, h⟩ | ⟨-, -, h⟩ <;> rw [h] <;> rfl

theorem mayLeave_read (h : readWith p s = .next t) : mayLeave .sRead t.scode = true := by
  rcases readWith_cases h with ⟨-, rfl⟩ | ⟨-, b, -, rfl⟩
  · rfl
  · rfl

theorem mayLeave_readt (h : readtWith p s = .next t) : mayLeave .sReadt t.scode = true := by
  rcases readtWith_cases h with ⟨-, rfl⟩ | ⟨-, t0, t1, t2, -, -, -, rfl⟩
  · rfl
  · rfl

/-- Settles O21, by the ways in which each command ends. -/
theorem eachCommandLeavesOnlyItsStatuses : Obligations.EachCommandLeavesOnlyItsStatuses := by
  intro i s t h
  cases i with
  | nop => rfl
  | crcGen | crcChk | hdrEnc | sInit => obtain rfl := Host.Outcome.next.inj h; rfl
  | valDec16 => obtain rfl := Host.Outcome.next.inj h; exact mayLeave_valDec16 _ _
  | valDec32 => obtain rfl := Host.Outcome.next.inj h; exact mayLeave_valDec32 _ _
  | valEnc32 => exact mayLeave_valEnc32 h
  | hdrDec => exact mayLeave_hdrDec h
  | sPush => exact mayLeave_push h
  | sAppend => exact mayLeave_append h
  | sSetdata => exact mayLeave_setdata h
  | sEncode => exact mayLeave_encode h
  | sVerify => obtain rfl := Host.Outcome.next.inj h; exact mayLeave_verify _ _
  | sRead => exact mayLeave_read h
  | sReadt => exact mayLeave_readt h

/-! ### Pure commands and safe states (R213) -/

/-- Settles O22: from both states the same status and results are recorded. -/
theorem pureCommandsDependOnOperandsOnly : Obligations.PureCommandsDependOnOperandsOnly := by
  intro i s u hpure ha hb
  obtain ⟨c, r, hs, hu⟩ := BlockState.exec_pure_of_operands hpure ha hb
  exact ⟨_, _, hs, hu, rfl, rfl, rfl, rfl, rfl, rfl⟩

/-- Settles O23: a pure command is one `record` and NOP is no change, and no buffer is touched by either. -/
theorem pureCommandsTouchOnlyTheResults : Obligations.PureCommandsTouchOnlyTheResults := by
  rintro i s t (hpure | rfl) h
  · obtain ⟨c, r, hs⟩ := exec_pure_cases hpure s
    obtain rfl := Host.Outcome.next.inj (hs.symm.trans h)
    exact ⟨rfl, fun _ => ⟨rfl, rfl⟩⟩
  · obtain rfl := Host.Outcome.next.inj ((System.nopChangesNothing s).symm.trans h)
    exact ⟨rfl, fun _ => ⟨rfl, rfl⟩⟩

/-- Settles O53: with LEN and SLEN inside CAP every byte that a command asks for exists. -/
theorem noStepFromASafeStateStops : Obligations.NoStepFromASafeStateStops :=
  fun _ hs => ⟨BlockState.step_completes hs, BlockState.exec_completes hs⟩

end Sys2Proof.Exceptions
end

section
/-! PROOFS. The statements of 70_reset_and_hazards.md: the reset state and the reset input (R240 to R242), and the
hazards of a second S.ENCODE (R246) and of consumed staging (R248). -/

namespace Sys2Proof.Hazards

open Sys2Proof.Machine Sys2Proof.Laws Sys2Proof.Safety

variable {p : Params} {s t : State}

/-! ### The reset state (R240, R242) -/

/-- R240: no register of the reset state holds anything but 0. -/
theorem readReg_reset (r : Reg) : readReg State.reset r = 0#32 := by
  cases r <;> rfl

/-- R240: with `LEN = SLEN = 0` no byte of BUF or STAGE is visible, so any contents look the same. -/
theorem sameVisible_reset (b g : Memory) :
    SameVisible p State.reset { State.reset with buf := b, stage := g } :=
  ⟨rfl, fun i hi => absurd hi (Nat.not_lt_zero i), fun i hi => absurd hi (Nat.not_lt_zero i)⟩

/-- R240: each command completes from reset, and its outcome hides what BUF and STAGE held. -/
theorem exec_reset_hides_bytes (i : Instr) (b g : Memory) : ∃ t u, exec i State.reset = .next t ∧
    exec i { State.reset with buf := b, stage := g } = .next u ∧ SameVisible Config.chip t u := by
  obtain ⟨t, ht⟩ := BlockState.exec_completes (BlockState.resetIsSafe []) i
  obtain ⟨u, hu, hsame⟩ := BlockState.hides_exec i _ _ t (sameVisible_reset b g) ht
  exact ⟨t, u, ht, hu, hsame⟩

/-- Settles O5: the reset values one by one, and no command shows a byte that is not visible. -/
theorem resetValuesAndUnobservableBuffers : Obligations.ResetValuesAndUnobservableBuffers :=
  ⟨fun ix => readReg_reset (regOfIndex ix), rfl, rfl, rfl, rfl, rfl, rfl, rfl, rfl, rfl, rfl, lencode_zero _, rfl, rfl,
    exec_reset_hides_bytes⟩

/-- R172: with `OPA = 0`, S.INIT selects the length code 0, that of Byte3. -/
theorem initStream_lcode (h : s.opa = 0#32) : (initStream s).lcode = 0#2 :=
  congrArg lc h

/-- Settles O6: S.INIT gives every register named the value of reset, and LCODE the code 0 of OPA. -/
theorem resetEqualsInitWithZeroOperand : Obligations.ResetEqualsInitWithZeroOperand := by
  refine ⟨rfl, fun s h => ?_⟩
  have hclass : clsOf Config.chip (initStream s) = .byte3 := by rw [clsOf, initStream_lcode h, lencode_zero]
  exact ⟨initStream s, rfl, initStream_lcode h, rfl, rfl, hclass, lencode_zero _, rfl, rfl, rfl, rfl, rfl, rfl, rfl, rfl,
    rfl, rfl, rfl, rfl⟩

/-! ### The reset input (R240, R241) -/

/-- Settles O7: each edge of the reset input is a whole step, and starts no command. -/
theorem resetInputGivesTheResetState : Obligations.ResetInputGivesTheResetState :=
  fun _ _ => ⟨BlockState.step_of_access rfl rfl, BlockState.step_of_access rfl rfl⟩

/-- R241: under reset even a write of CMD is dropped. -/
theorem takeInput_write_of_reset (h : s.resetAsserted = true) (ix : RegIndex) (v : Word) :
    takeInput (.write ix v) s = (s, none) :=
  if_pos h

/-- Settles O8: a write under reset is dropped, and a read only records the free value it returns. -/
theorem accessesUnderResetHaveNoEffect : Obligations.AccessesUnderResetHaveNoEffect := by
  intro s ix v rest hreset
  have hwrite := takeInput_write_of_reset (s := { s with inputs := rest }) hreset ix v
  exact ⟨BlockState.step_of_access rfl hwrite, _, BlockState.step_of_access rfl rfl⟩

/-! ### S.ENCODE is not idempotent (R246) -/

/-- Settles O44: each encode complements the first byte of every triplet, and the complement is its own inverse. -/
theorem secondEncodeRestoresFirstBytes : Obligations.SecondEncodeRestoresFirstBytes := by
  intro s hcomplete hcap
  obtain ⟨t, ht, hframe, hfirst, -⟩ := (Stream.encodePutsEveryTripletInWireForm s).2 hcomplete hcap
  have hstate : t.astate = .complete := by rw [hframe]; exact hcomplete
  have hlen : t.len = s.len := by rw [hframe]
  obtain ⟨u, hu, -, hsecond, -⟩ := (Stream.encodePutsEveryTripletInWireForm t).2 hstate (hlen ▸ hcap)
  refine ⟨t, u, ht, hu, fun j hj => ?_⟩
  obtain ⟨r0, r1, hs0, hs1, ht0, ht1, -⟩ := hfirst j hj
  obtain ⟨q0, q1, hq0, hq1, hu0, hu1, hu2⟩ := hsecond j (hlen ▸ hj)
  obtain rfl := Option.some.inj (ht0.symm.trans hq0)
  obtain rfl := Option.some.inj (ht1.symm.trans hq1)
  have hraw : BitVec.ofNat 8 (255 - (BitVec.ofNat 8 (255 - r0.toNat)).toNat) = r0 := by
    simpa [← Scope.toNat_not8] using (Scope.onesComplementIsItsOwnInverse r0).2.2
  rw [hraw] at hu0 hu2
  exact ⟨r0, r1, hs0, hs1, hu0, hu1, hu2⟩

/-! ### Staging is consumed (R248) -/

/-- R174: every outcome of S.APPEND empties STAGE. -/
theorem slen_append (h : appendWith p s = .next t) : t.slen = 0#16 := by
  rcases appendWith_cases h with ⟨-, rfl⟩ | ⟨-, -, rfl⟩ | ⟨-, -, -, bs, -, hchecked⟩
  · rfl
  · rfl
  · rcases hchecked with ⟨j, c, x, -, rfl⟩ | ⟨-, ⟨-, rfl⟩ | ⟨-, -, rfl⟩ | ⟨-, -, s1, -, rfl⟩⟩
    · rfl
    · rfl
    · rfl
    · rfl

/-- R178: every outcome of S.SETDATA empties STAGE. -/
theorem slen_setdata (h : setdataWith p s = .next t) : t.slen = 0#16 := by
  rcases setdataWith_cases h with ⟨-, rfl⟩ | ⟨-, -, rfl⟩ | ⟨-, -, -, rfl⟩ | ⟨-, -, -, -, bs, s1, -, -, rfl⟩
  · rfl
  · rfl
  · rfl
  · rfl

/-- Settles O48, by the outcomes of the two commands. -/
theorem stagingIsConsumedOnEveryOutcome : Obligations.StagingIsConsumedOnEveryOutcome := by
  rintro i s t (rfl | rfl) h
  · exact slen_append h
  · exact slen_setdata h

end Sys2Proof.Hazards
end
